-- ==== Sys2Proof/Word.lean ====
section
/-! DEFINITION. The plain data of CORE: bytes, 16-byte blocks, 4 x 4 byte matrices, the names of the
seven micro-operations, the colour vocabulary, and the shape of a Step Record. Functions on them
stand in Decode.lean and in Machine/. -/

namespace Sys2Proof

/-- A byte, 0..255 (R7). -/
abbrev Byte := BitVec 8

/-- A block `b[0..15]` of 16 bytes (R9, R86): the length is part of the type. -/
abbrev Block := Vector Byte 16

/-- A 4 x 4 byte matrix, row first: `m[i][j]` is row `i`, column `j` (R8, R11). -/
abbrev ByteMatrix := Vector (Vector Byte 4) 4

/-- The seven micro-operations by name, without their operand (R63). -/
inductive Op where
  | enc | arki | sub | rot | mix | ark | fin
  deriving DecidableEq, Repr

/-- A micro-operation as the control store issues it: the opcode and the `rnd` field (R62). -/
structure Uop where
  op  : Op
  rnd : BitVec 4
  deriving DecidableEq, Repr

/-- The colour vocabulary of the Step Records (R67). -/
inductive Colour where
  | gray | red | blue | purple | green | cyan
  deriving DecidableEq, Repr

/-- A Step Record as hardware stores it (R150). -/
structure StepRecord where
  seq   : BitVec 6
  op    : Op
  round : Option (BitVec 4)
  col   : Colour
  mat   : ByteMatrix
  ct    : Option Block
  deriving DecidableEq, Repr

end Sys2Proof
end

