-- ==== Sys2Proof/Config.lean ====
section
/-! DEFINITION. What is fixed for the machine: the configuration with its one parameter, the substitution
table (R90, R92, U16), the depths of the storage spaces (R6, R40), and the OPEN display parameters of R159
and R162. -/

namespace Sys2Proof

/-- The configuration of a CORE: the parameter a claim about the machine may take as an argument (U16). -/
structure Config where
  /-- `SBOX`, 256 entries in index order (R15, R92): no part of the mutable state. -/
  sbox : Vector Byte 256
  deriving DecidableEq, Repr

/-- Row `0_` of the table of R90. -/
def Config.sboxRow0 : List Byte :=
  [0x63, 0x7c, 0x77, 0x7b, 0xf2, 0x6b, 0x6f, 0xc5, 0x30, 0x01, 0x67, 0x2b, 0xfe, 0xd7, 0xab, 0x76]

/-- Row `1_` of the table of R90. -/
def Config.sboxRow1 : List Byte :=
  [0xca, 0x82, 0xc9, 0x7d, 0xfa, 0x59, 0x47, 0xf0, 0xad, 0xd4, 0xa2, 0xaf, 0x9c, 0xa4, 0x72, 0xc0]

/-- Row `2_` of the table of R90. -/
def Config.sboxRow2 : List Byte :=
  [0xb7, 0xfd, 0x93, 0x26, 0x36, 0x3f, 0xf7, 0xcc, 0x34, 0xa5, 0xe5, 0xf1, 0x71, 0xd8, 0x31, 0x15]

/-- Row `3_` of the table of R90. -/
def Config.sboxRow3 : List Byte :=
  [0x04, 0xc7, 0x23, 0xc3, 0x18, 0x96, 0x05, 0x9a, 0x07, 0x12, 0x80, 0xe2, 0xeb, 0x27, 0xb2, 0x75]

/-- Row `4_` of the table of R90. -/
def Config.sboxRow4 : List Byte :=
  [0x09, 0x83, 0x2c, 0x1a, 0x1b, 0x6e, 0x5a, 0xa0, 0x52, 0x3b, 0xd6, 0xb3, 0x29, 0xe3, 0x2f, 0x84]

/-- Row `5_` of the table of R90. -/
def Config.sboxRow5 : List Byte :=
  [0x53, 0xd1, 0x00, 0xed, 0x20, 0xfc, 0xb1, 0x5b, 0x6a, 0xcb, 0xbe, 0x39, 0x4a, 0x4c, 0x58, 0xcf]

/-- Row `6_` of the table of R90. -/
def Config.sboxRow6 : List Byte :=
  [0xd0, 0xef, 0xaa, 0xfb, 0x43, 0x4d, 0x33, 0x85, 0x45, 0xf9, 0x02, 0x7f, 0x50, 0x3c, 0x9f, 0xa8]

/-- Row `7_` of the table of R90. -/
def Config.sboxRow7 : List Byte :=
  [0x51, 0xa3, 0x40, 0x8f, 0x92, 0x9d, 0x38, 0xf5, 0xbc, 0xb6, 0xda, 0x21, 0x10, 0xff, 0xf3, 0xd2]

/-- Row `8_` of the table of R90. -/
def Config.sboxRow8 : List Byte :=
  [0xcd, 0x0c, 0x13, 0xec, 0x5f, 0x97, 0x44, 0x17, 0xc4, 0xa7, 0x7e, 0x3d, 0x64, 0x5d, 0x19, 0x73]

/-- Row `9_` of the table of R90. -/
def Config.sboxRow9 : List Byte :=
  [0x60, 0x81, 0x4f, 0xdc, 0x22, 0x2a, 0x90, 0x88, 0x46, 0xee, 0xb8, 0x14, 0xde, 0x5e, 0x0b, 0xdb]

/-- Row `a_` of the table of R90. -/
def Config.sboxRowA : List Byte :=
  [0xe0, 0x32, 0x3a, 0x0a, 0x49, 0x06, 0x24, 0x5c, 0xc2, 0xd3, 0xac, 0x62, 0x91, 0x95, 0xe4, 0x79]

/-- Row `b_` of the table of R90. -/
def Config.sboxRowB : List Byte :=
  [0xe7, 0xc8, 0x37, 0x6d, 0x8d, 0xd5, 0x4e, 0xa9, 0x6c, 0x56, 0xf4, 0xea, 0x65, 0x7a, 0xae, 0x08]

/-- Row `c_` of the table of R90. -/
def Config.sboxRowC : List Byte :=
  [0xba, 0x78, 0x25, 0x2e, 0x1c, 0xa6, 0xb4, 0xc6, 0xe8, 0xdd, 0x74, 0x1f, 0x4b, 0xbd, 0x8b, 0x8a]

/-- Row `d_` of the table of R90. -/
def Config.sboxRowD : List Byte :=
  [0x70, 0x3e, 0xb5, 0x66, 0x48, 0x03, 0xf6, 0x0e, 0x61, 0x35, 0x57, 0xb9, 0x86, 0xc1, 0x1d, 0x9e]

/-- Row `e_` of the table of R90. -/
def Config.sboxRowE : List Byte :=
  [0xe1, 0xf8, 0x98, 0x11, 0x69, 0xd9, 0x8e, 0x94, 0x9b, 0x1e, 0x87, 0xe9, 0xce, 0x55, 0x28, 0xdf]

/-- Row `f_` of the table of R90. -/
def Config.sboxRowF : List Byte :=
  [0x8c, 0xa1, 0x89, 0x0d, 0xbf, 0xe6, 0x42, 0x68, 0x41, 0x99, 0x2d, 0x0f, 0xb0, 0x54, 0xbb, 0x16]

/-- The 256 values of the table of R90 in index order. The spec supplies them (`[from general knowledge,
not in source]`, D13). -/
def Config.sboxTable : List Byte :=
  Config.sboxRow0 ++ Config.sboxRow1 ++ Config.sboxRow2 ++ Config.sboxRow3 ++
  Config.sboxRow4 ++ Config.sboxRow5 ++ Config.sboxRow6 ++ Config.sboxRow7 ++
  Config.sboxRow8 ++ Config.sboxRow9 ++ Config.sboxRowA ++ Config.sboxRowB ++
  Config.sboxRowC ++ Config.sboxRowD ++ Config.sboxRowE ++ Config.sboxRowF

/-- The default of the parameter (U16), with which the machine of `Machine/Step.lean` runs: the table of
R90. -/
def Config.standard : Config :=
  { sbox := ⟨Config.sboxTable.toArray, by decide +kernel⟩ }

/-- The named property of a table that R91 (a) gives and R92 asks theorems to rest on: its 256 outputs
are pairwise distinct. -/
def Config.SboxBijective (c : Config) : Prop := c.sbox.toList.Nodup

/-- `RKMAX`: the round-key bank has 15 entries (R6, R14, R40). -/
def Config.rkDepth : Nat := 15

/-- `TRMAX`: the trace memory has 58 entries (R6, R16, R40). -/
def Config.trDepth : Nat := 58

/-- The OPEN display parameters (R159, R162, U15): the four operation names the source does not give
and the description text. The rendering functions take them as an argument, so that nothing about
their values can be proved. -/
structure Config.DisplayParams where
  /-- `NAME_ROT`, of the round number. -/
  nameRot : Nat → String
  /-- `NAME_MIX`, of the round number. -/
  nameMix : Nat → String
  /-- `NAME_ARK`, of the round number. -/
  nameArk : Nat → String
  /-- `NAME_FIN`. -/
  nameFin : String
  /-- `DESC`, of the micro-operation and its optional round: uninterpreted. -/
  desc    : Op → Option Nat → String

end Sys2Proof
end

