-- ==== Sys2Proof/Syntax.lean ====
section
/-! DEFINITION. The instructions of CORE: one constructor per row of spec/opcode_table.json. -/

namespace Sys2Proof

/-- The host operations `START` and `READ`, the seven micro-operations, and the table's reserved row. -/
inductive Instr where
  /-- `START ks, key, block` (R126, R127), format CMD (R61). -/
  | start (ks : BitVec 16) (key block : Block)
  /-- `ENC` (R83). -/
  | enc
  /-- `ARKI` (R118). -/
  | arki
  /-- `SUB r` (R115). -/
  | sub (r : BitVec 4)
  /-- `ROT r` (R116). -/
  | rot (r : BitVec 4)
  /-- `MIX r` (R117). -/
  | mix (r : BitVec 4)
  /-- `ARK r` (R119). -/
  | ark (r : BitVec 4)
  /-- `FIN` (R84). -/
  | fin
  /-- `READ n` (R157), format RD (R70). -/
  | read (n : BitVec 6)
  /-- The table's row `(reserved)`, UOP words `111 xxxx` (R65): never well-formed, no word decodes to it. -/
  | reserved (x : BitVec 4)
  deriving DecidableEq, Repr

end Sys2Proof
end

