-- ==== Sys2Proof/WellFormed.lean ====
section
/-! DEFINITION. Which instructions are well formed: the operand ranges of R64. -/

namespace Sys2Proof

/-- `SUB`, `ROT` and `ARK` take rounds 1..14, `MIX` rounds 1..13, every `START` and `READ` operand is
legal as syntax (R64, R69, R70), and a reserved word is no instruction (R65). -/
def Instr.wf : Instr → Bool
  | .start _ _ _ => true
  | .enc => true
  | .arki => true
  | .sub r => decide (1 ≤ r.toNat) && decide (r.toNat ≤ 14)
  | .rot r => decide (1 ≤ r.toNat) && decide (r.toNat ≤ 14)
  | .mix r => decide (1 ≤ r.toNat) && decide (r.toNat ≤ 13)
  | .ark r => decide (1 ≤ r.toNat) && decide (r.toNat ≤ 14)
  | .fin => true
  | .read _ => true
  | .reserved _ => false

end Sys2Proof
end

