-- ==== Sys2Proof/Decode.lean ====
section
/-! DEFINITION. The bit layouts of R43, R61, R62 and R70, the decoder of every code word, total and
refusing by name (R65), the encoder written from the same tables, and decodeTableWord. -/

namespace Sys2Proof

/-- A block as one 128-bit vector: byte `n` at bits `8n+7 : 8n` (R43). -/
def packBlock (b : Block) : BitVec 128 :=
  (b[15] ++ b[14] ++ b[13] ++ b[12] : BitVec 32) ++ (b[11] ++ b[10] ++ b[9] ++ b[8] : BitVec 32) ++
    (b[7] ++ b[6] ++ b[5] ++ b[4] : BitVec 32) ++ (b[3] ++ b[2] ++ b[1] ++ b[0] : BitVec 32)

/-- The block that a 128-bit vector packs (R43). -/
def unpackBlock (v : BitVec 128) : Block :=
  Vector.ofFn fun n => v.extractLsb' (8 * n.val) 8

/-- The opcode number of a micro-operation (R63). -/
def opCode : Op → BitVec 3
  | .enc => 0
  | .arki => 1
  | .sub => 2
  | .rot => 3
  | .mix => 4
  | .ark => 5
  | .fin => 6

/-- The micro-operation of an opcode number; 7 is reserved (R63, R65). -/
def opOfCode (c : BitVec 3) : Option Op :=
  match c.toNat with
  | 0 => some .enc
  | 1 => some .arki
  | 2 => some .sub
  | 3 => some .rot
  | 4 => some .mix
  | 5 => some .ark
  | 6 => some .fin
  | _ => none

/-- Which `rnd` values are legal with which opcode (R64, R65). -/
def uopLegal (op : Op) (rnd : BitVec 4) : Bool :=
  match op with
  | .enc => decide (rnd.toNat = 0)
  | .arki => decide (rnd.toNat = 0)
  | .sub => decide (1 ≤ rnd.toNat ∧ rnd.toNat ≤ 14)
  | .rot => decide (1 ≤ rnd.toNat ∧ rnd.toNat ≤ 14)
  | .mix => decide (1 ≤ rnd.toNat ∧ rnd.toNat ≤ 13)
  | .ark => decide (1 ≤ rnd.toNat ∧ rnd.toNat ≤ 14)
  | .fin => decide (rnd.toNat = 0)

/-- The `UOP` word `{op, rnd}` of a micro-operation (R62). -/
def uopWord (u : Uop) : BitVec 7 := opCode u.op ++ u.rnd

/-- The instruction a legal micro-operation stands for. -/
def uopInstr (u : Uop) : Instr :=
  match u.op with
  | .enc => .enc
  | .arki => .arki
  | .sub => .sub u.rnd
  | .rot => .rot u.rnd
  | .mix => .mix u.rnd
  | .ark => .ark u.rnd
  | .fin => .fin

/-- A code word on the port or in the store where it travels (R60). The port tells the format: no word
has an opcode field that would tell a `CMD` from a `UOP` or an `RD` word. -/
inductive CodeWord where
  /-- A `CMD` word on the command port (R61). -/
  | cmd (w : BitVec 272)
  /-- A `UOP` word from the control store (R62). -/
  | uop (w : BitVec 7)
  /-- An `RD` word on the trace read port (R70). -/
  | rd (w : BitVec 6)
  deriving DecidableEq, Repr

/-- Why a word is refused by the decoder. -/
inductive DecodeError where
  /-- "illegal micro-operation" (R65). -/
  | illegalMicroOperation
  deriving DecidableEq, Repr

/-- The decoder of `UOP` words: it refuses opcode 7 and every `rnd` illegal for its opcode (R65). -/
def decodeUop (w : BitVec 7) : Except DecodeError Instr :=
  match opOfCode (w.extractLsb' 4 3) with
  | none => .error .illegalMicroOperation
  | some op =>
    if uopLegal op (w.extractLsb' 0 4) then .ok (uopInstr { op := op, rnd := w.extractLsb' 0 4 })
    else .error .illegalMicroOperation

/-- The decoder of `CMD` words, which refuses none: an illegal `key_size` is the exception of R170,
raised when the command is accepted, no decoding failure (R61, R69). -/
def decodeCmd (w : BitVec 272) : Instr :=
  .start (w.extractLsb' 256 16) (unpackBlock (w.extractLsb' 128 128)) (unpackBlock (w.extractLsb' 0 128))

/-- The decoder: total on every word of every format. -/
def decode : CodeWord → Except DecodeError Instr
  | .cmd w => .ok (decodeCmd w)
  | .uop w => decodeUop w
  | .rd w => .ok (.read w)

/-- The encoder, from the tables of R61, R63 and R70. -/
def encode : Instr → CodeWord
  | .start ks key block => .cmd (ks ++ packBlock key ++ packBlock block)
  | .enc => .uop 0b0000000
  | .arki => .uop 0b0010000
  | .sub r => .uop (0b010#3 ++ r)
  | .rot r => .uop (0b011#3 ++ r)
  | .mix r => .uop (0b100#3 ++ r)
  | .ark r => .uop (0b101#3 ++ r)
  | .fin => .uop 0b1100000
  | .read n => .rd n
  | .reserved x => .uop (0b111#3 ++ x)

/-- The code word of a table row's bits. Formats differ by port, not by bits, so the row's width tells
them apart: up to 6 bits a `RD` word, 7 or 8 bits (7 in whole bytes) a `UOP` word, more a `CMD` word.
A set bit above the format's width makes no word. -/
def codeWordOfTable (nbits w : Nat) : Option CodeWord :=
  if nbits ≤ 6 then (if w < 2 ^ 6 then some (.rd (BitVec.ofNat 6 w)) else none)
  else if nbits ≤ 8 then (if w < 2 ^ 7 then some (.uop (BitVec.ofNat 7 w)) else none)
  else if w < 2 ^ 272 then some (.cmd (BitVec.ofNat 272 w)) else none

/-- What `decode` reads from a row of spec/opcode_table.json whose bits are `w`. -/
def decodeTableWord (nbits w : Nat) : Option Instr :=
  match codeWordOfTable nbits w with
  | none => none
  | some c =>
    match decode c with
    | .ok i => some i
    | .error _ => none

end Sys2Proof
end

