-- ==== Sys2Proof/Machine/Transforms.lean ====
section
/-! DEFINITION. The pure functions of the data path: the codec (R80, R81), the round-key schedule
(R95, R97), the four round transforms (R106, R108, R110, R113) and the matrix packing (R44). -/

namespace Sys2Proof.Machine

/-- `Encode(b)`: `M[i][j] = b[i + 4*j]`, column-major (R80). -/
def encodeBlock (b : Block) : ByteMatrix :=
  Vector.ofFn fun i => Vector.ofFn fun j => b[i.val + 4 * j.val]

/-- `Decode(M)`: `b[n] = M[n mod 4][n div 4]` (R81). -/
def decodeMatrix (m : ByteMatrix) : Block :=
  Vector.ofFn fun n => m[n.val % 4][n.val / 4]

/-- A matrix as one 128-bit vector: the block `Decode(M)` packed (R44). -/
def packMatrix (m : ByteMatrix) : BitVec 128 := packBlock (decodeMatrix m)

/-- The matrix that a 128-bit vector packs (R44). -/
def unpackMatrix (v : BitVec 128) : ByteMatrix := encodeBlock (unpackBlock v)

/-- `RoundKey(K, r)`: `(K[i][j] + r*16 + i*4 + j) mod 256` (R95), total in `r` (U5). -/
def roundKey (k : ByteMatrix) (r : Nat) : ByteMatrix :=
  Vector.ofFn fun i => Vector.ofFn fun j =>
    k[i][j] + BitVec.ofNat 8 (r * 16 + i.val * 4 + j.val)

/-- `Generate(key, nr)`: the `nr + 1` round keys in order (R97). -/
def generate (key : Block) (nr : Nat) : List ByteMatrix :=
  (List.range (nr + 1)).map (roundKey (encodeBlock key))

/-- `MemRead(SBOX, x)` (R15, R40) with the table of a configuration (R92). -/
def sboxRead (c : Config) (x : Byte) : Byte := c.sbox[x.toNat]'x.isLt

/-- `ByteSubstitution(m)` (R106) with the table of a configuration (R92). -/
def byteSubstitution (c : Config) (m : ByteMatrix) : ByteMatrix :=
  Vector.ofFn fun i => Vector.ofFn fun j => sboxRead c m[i][j]

/-- `RowRotation(m)`: `out[r][c] = m[r][(c + r) mod 4]` (R108). -/
def rowRotation (m : ByteMatrix) : ByteMatrix :=
  Vector.ofFn fun r => Vector.ofFn fun c => m[r][(c.val + r.val) % 4]

/-- `ColumnMix(m)`, as the source writes it, starting at row `r` (R110); R112 states that the rows
collapse. -/
def columnMix (m : ByteMatrix) : ByteMatrix :=
  Vector.ofFn fun r => Vector.ofFn fun c =>
    m[r][c] ^^^ m[(r.val + 1) % 4][c] ^^^ m[(r.val + 2) % 4][c] ^^^ m[(r.val + 3) % 4][c]

/-- `KeyXor(m, k)` (R113). -/
def keyXor (m k : ByteMatrix) : ByteMatrix :=
  Vector.ofFn fun i => Vector.ofFn fun j => m[i][j] ^^^ k[i][j]

/-- `Normalize(p)`, the host's duty of R128 (a): the first 16 bytes, padded with zero bytes on the right.
CORE does not perform it (R5 (e)). -/
def normalize (p : List Byte) : Block :=
  Vector.ofFn fun n => p.getD n.val 0

end Sys2Proof.Machine
end

