-- ==== Sys2Proof/Machine/Record.lean ====
section
/-! DEFINITION. The Step Record: MakeRecord and Colour (R152), and its 274-bit word REC (R66 to R68). -/

namespace Sys2Proof.Machine

/-- `Colour(op)` (R67, R152). -/
def colour : Op → Colour
  | .enc => .gray
  | .arki => .red
  | .sub => .blue
  | .rot => .purple
  | .mix => .green
  | .ark => .red
  | .fin => .cyan

/-- Whether records of an operation carry a round index (R68, R152). -/
def hasRound : Op → Bool
  | .enc => false
  | .arki => false
  | .sub => true
  | .rot => true
  | .mix => true
  | .ark => true
  | .fin => false

/-- Whether records of an operation carry a ciphertext (R68, R152). -/
def hasCiphertext (op : Op) : Bool := decide (op = .fin)

/-- `MakeRecord(n, op, rnd, m)` (R152). -/
def makeRecord (n : BitVec 6) (op : Op) (rnd : BitVec 4) (m : ByteMatrix) : StepRecord :=
  { seq := n
    op := op
    round := if hasRound op then some rnd else none
    col := colour op
    mat := m
    ct := if hasCiphertext op then some (decodeMatrix m) else none }

/-- The colour's number (R67). -/
def colourCode : Colour → BitVec 3
  | .gray => 0
  | .red => 1
  | .blue => 2
  | .purple => 3
  | .green => 4
  | .cyan => 5

/-- The colour of a number; 6 and 7 are reserved (R67). -/
def colourOfCode (c : BitVec 3) : Option Colour :=
  match c.toNat with
  | 0 => some .gray
  | 1 => some .red
  | 2 => some .blue
  | 3 => some .purple
  | 4 => some .green
  | 5 => some .cyan
  | _ => none

/-- The records that meet R66 to R68, as every record hardware writes does: the index is one of `TR`'s, the
round is there exactly for the operations that carry one and legal for them, the colour is the
operation's, the ciphertext is there exactly for `FIN`. It does not ask that a `FIN` record's ciphertext
is its matrix decoded (R155), nor that operation and round are those of step `seq` (R156): log entry
21. -/
def recordConsistent (r : StepRecord) : Bool :=
  decide (r.seq.toNat < Config.trDepth) &&
    (r.round.isSome == hasRound r.op) &&
    uopLegal r.op (r.round.getD 0) &&
    decide (r.col = colour r.op) &&
    (r.ct.isSome == hasCiphertext r.op)

/-- The `ct` field of a `REC` word: the packed block, zero where the record carries none (R66). -/
def ciphertextBits : Option Block → BitVec 128
  | some b => packBlock b
  | none => 0

/-- The `REC` word: `seq`, `op`, `rnd`, `rv`, `col`, `cv`, `ct`, `mat` from bit 273 down, absent fields
zero (R66). -/
def recordWord (r : StepRecord) : BitVec 274 :=
  r.seq ++ opCode r.op ++ r.round.getD 0 ++ BitVec.ofBool r.round.isSome ++ colourCode r.col ++
    BitVec.ofBool r.ct.isSome ++ ciphertextBits r.ct ++ packMatrix r.mat

/-- Why a `REC` word is refused (R65, R67, R68). -/
inductive RecordError where
  /-- Its `op` and `rnd` make no legal micro-operation (R65). -/
  | illegalMicroOperation
  /-- Its colour code is 6 or 7 (R67). -/
  | reservedColour
  /-- Its presence bits, zero fill or colour break R68, or its index is above 57 (log entry 11). -/
  | inconsistentRecord
  deriving DecidableEq, Repr

/-- The fields of a `REC` word whose `op` and `col` numbers name an operation and a colour; `rnd` and
`ct` are read as present exactly when `rv` and `cv` say so (R66). -/
def recordFields (w : BitVec 274) (op : Op) (col : Colour) : StepRecord :=
  { seq := w.extractLsb' 268 6
    op := op
    round := if w.getLsbD 260 then some (w.extractLsb' 261 4) else none
    col := col
    mat := unpackMatrix (w.extractLsb' 0 128)
    ct := if w.getLsbD 256 then some (unpackBlock (w.extractLsb' 128 128)) else none }

/-- The decoder of `REC` words: it refuses an illegal micro-operation (R65), a reserved colour (R67), a word
that R68 lists, absent fields that are not zero among them, and an index above 57 (R150, log entry 11). It
takes every other word, also one that hardware never writes because of R155 or R156: DESIGN CHOICE, log
entry 21. -/
def decodeRecord (w : BitVec 274) : Except RecordError StepRecord :=
  match opOfCode (w.extractLsb' 265 3) with
  | none => .error .illegalMicroOperation
  | some op =>
    if uopLegal op (w.extractLsb' 261 4) then
      match colourOfCode (w.extractLsb' 257 3) with
      | none => .error .reservedColour
      | some col =>
        if recordConsistent (recordFields w op col) && decide (recordWord (recordFields w op col) = w) then
          .ok (recordFields w op col)
        else .error .inconsistentRecord
    else .error .illegalMicroOperation

end Sys2Proof.Machine
end

