-- ==== Sys2Proof/Machine/State.lean ====
section
/-! DEFINITION. The state of one CORE instance (R10), the host moves still to come, the reset state
(R27), and the reasons a step can stop. -/

namespace Sys2Proof.Machine

/-- The phase register `PH` (R19). All four values of the two bits are named. -/
inductive Phase where
  | idle | busy | done | err
  deriving DecidableEq, Repr

/-- An indexed storage space (R40), as its cells in one canonical form: indices strictly rising, each
below the space's depth. An index that is not listed holds no value (R28). -/
structure Memory (α : Type) where
  cells : List (Nat × α)
  deriving DecidableEq, Repr

/-- The canonical form of a storage space of `depth` elements. -/
def Memory.wf {α : Type} (depth : Nat) (m : Memory α) : Bool :=
  decide ((m.cells.map Prod.fst).Pairwise (· < ·)) && m.cells.all fun c => decide (c.1 < depth)

/-- What the host does on CORE's inputs while one step is taken (R23, R125, R190). -/
inductive HostMove where
  /-- Nothing is asserted. -/
  | quiet
  /-- The reset input is asserted (R190). -/
  | reset
  /-- `CMD_VALID = 1` with a `CMD` word on the command port (R23, R61). -/
  | command (w : BitVec 272)
  /-- A trace read request, an `RD` word (R70). -/
  | request (w : BitVec 6)
  deriving DecidableEq, Repr

/-- The machine's state. The first ten fields and the configuration constant `SBOX` (`Config.standard`) are the tuple of R10;
`host` and `reply` are the model's own: the inputs to come and the answer to the last step's `READ`.
`none`, and an unlisted index of `rk` or `tr`, is the spec's "holds no value" (R27, R28). -/
structure State where
  /-- `BLK`, the block latch (R13). -/
  blk    : Option Block
  /-- `KM`, the key matrix register (R12). -/
  km     : Option ByteMatrix
  /-- `ST`, the State Matrix register (R11). -/
  st     : Option ByteMatrix
  /-- `RK[0..14]`, the round-key bank (R14). -/
  rk     : Memory ByteMatrix
  /-- `TR[0..57]`, the trace memory (R16). -/
  tr     : Memory StepRecord
  /-- `SEQ`, the step counter: program counter, next record index, record count (R17). -/
  seq    : BitVec 6
  /-- `NR`, the round count (R18). -/
  nr     : BitVec 4
  /-- `PH`, the phase (R19). -/
  ph     : Phase
  /-- `ECAUSE`, the error cause (R21). -/
  ecause : BitVec 2
  /-- `EVAL`, the error value (R22). -/
  eval   : BitVec 16
  /-- The model's own: the host's moves to come, one a step, the next one first. -/
  host   : List HostMove
  /-- The model's own: the record an enabled `READ` returned in the last step, if it was one (R157). -/
  reply  : Option StepRecord
  deriving DecidableEq, Repr

/-- Reset values (R27, R190): the host has not moved yet and nothing has been read. -/
def State.reset : State :=
  { blk := none, km := none, st := none, rk := { cells := [] }, tr := { cells := [] },
    seq := 0, nr := 0, ph := .idle, ecause := 0, eval := 0, host := [], reply := none }

/-- A storage element that can hold no value. -/
inductive Element where
  | blk
  | st
  | rk (r : BitVec 4)
  | tr (n : BitVec 6)
  deriving DecidableEq, Repr

/-- Why the machine stops. None is reached by a step from a well-formed state (`Inv`: R26, and log
entry 16). -/
inductive Fault where
  /-- Raised by a micro-operation or a `READ` that reads an element holding no value. R28 asks for
  this fault. Safe. -/
  | noValue (e : Element)
  /-- Raised by `ARK r` with `r > NR`: the entry is stale and R14 says that no operation reads it
  (U7 asks for this fault). Safe. -/
  | roundKeyNotInUse (r : BitVec 4)
  /-- Raised by a micro-operation while `SEQ` is past the last entry of `TR`: an index that R40 says
  cannot be formed. Safe. -/
  | traceIndexOutOfRange
  /-- Raised by a micro-operation while `PH != BUSY`, when R131 gives the sequencer no transition. Safe. -/
  | sequencerNotEnabled
  /-- Raised by `step` while `PH = BUSY` with `NR` or `SEQ` outside the control store's domain
  (R129 calls it undefined; U11 reads it as stuck). Safe. -/
  | controlStoreUndefined
  deriving DecidableEq, Repr

/-- Why an instruction is given no meaning. -/
inductive Refusal where
  /-- Raised by `exec`'s arm of an instruction that has no meaning yet. Safe. -/
  | notModelled (mnemonic : String)
  /-- "Illegal micro-operation" (R65): raised by the reserved opcode and by a round number outside the
  opcode's range. No interface lets such a word in. Safe. -/
  | illegalMicroOperation
  deriving DecidableEq, Repr

end Sys2Proof.Machine
end

