-- ==== Sys2Proof/Machine/Ops.lean ====
section
/-! DEFINITION. The named operations on the state: whole-element reads and writes of a storage space
(R40), KGEN (R98), the effect of a legal START (R127), the error entry (R172), the common write of a
sequencer step (R131), and reset (R190). CORE has no return from its one exception: the error state
is left by the next START, which overwrites what the entry wrote (R174). -/

namespace Sys2Proof.Machine

/-- The element at an index, `none` where the space holds no value there (R8, R28). -/
def Memory.readCells {α : Type} : List (Nat × α) → Nat → Option α
  | [], _ => none
  | (k, v) :: rest, n => if k = n then some v else Memory.readCells rest n

/-- `MemRead(space, n)` (R8, R40). -/
def Memory.read {α : Type} (m : Memory α) (n : Nat) : Option α := Memory.readCells m.cells n

/-- Put an element at its place in rising order, replacing what its index held. -/
def Memory.writeCells {α : Type} : List (Nat × α) → Nat → α → List (Nat × α)
  | [], n, v => [(n, v)]
  | (k, u) :: rest, n, v =>
    if n < k then (n, v) :: (k, u) :: rest
    else if k = n then (n, v) :: rest
    else (k, u) :: Memory.writeCells rest n v

/-- `MemWrite(space, n, v)` (R8, R40). -/
def Memory.write {α : Type} (m : Memory α) (n : Nat) (v : α) : Memory α :=
  { cells := Memory.writeCells m.cells n v }

/-- `KGEN`: write `RoundKey(KM, r)` for every `r` in `0..NR`; the entries above are not written (R98). -/
def kgen (km : ByteMatrix) (nr : Nat) (rk : Memory ByteMatrix) : Memory ByteMatrix :=
  (List.range (nr + 1)).foldl (fun bank r => bank.write r (roundKey km r)) rk

/-- `totalRounds = {128:10, 192:12, 256:14}[key_size]`; no other selector is legal (R18, R127, R170). -/
def roundsFor (ks : BitVec 16) : Option (BitVec 4) :=
  if ks.toNat = 128 then some 10
  else if ks.toNat = 192 then some 12
  else if ks.toNat = 256 then some 14
  else none

/-- The accepting step of a `START` with a legal selector (R127): `ST` and `TR` are not written. -/
def launch (nr : BitVec 4) (key block : Block) (s : State) : State :=
  { s with
    nr := nr
    blk := some block
    km := some (encodeBlock key)
    rk := kgen (encodeBlock key) nr.toNat s.rk
    seq := 0
    ecause := 0
    eval := 0
    ph := .busy }

/-- `raise InvalidKeySize(ks)`, the one exception's entry (R172): these four writes and nothing else; no
handler, no saved pc, no mode change. -/
def raiseInvalidKeySize (ks : BitVec 16) (s : State) : State :=
  { s with ph := .err, ecause := 1, eval := ks, seq := 0 }

/-- The writes every sequencer step ends with (R131): `ST`, the record at `TR[SEQ]`, `SEQ + 1`, and
`PH <- DONE` for `FIN`. -/
def commitMicroOp (op : Op) (rnd : BitVec 4) (m : ByteMatrix) (s : State) :
    Host.Outcome State Fault Refusal :=
  if s.seq.toNat < Config.trDepth then
    .next { s with
      st := some m
      tr := s.tr.write s.seq.toNat (makeRecord s.seq op rnd m)
      seq := s.seq + 1
      ph := if op = .fin then .done else s.ph }
  else .fault .traceIndexOutOfRange

/-- One micro-operation: refused when its operand is illegal (R65), enabled exactly while `PH = BUSY`
(R131), faulting when it reads an absent element (R28), and else committed with the new matrix. -/
def microOp (op : Op) (rnd : BitVec 4) (newSt : Except Fault ByteMatrix) (s : State) :
    Host.Outcome State Fault Refusal :=
  if uopLegal op rnd then
    if s.ph = .busy then
      match newSt with
      | .ok m => commitMicroOp op rnd m s
      | .error f => .fault f
    else .fault .sequencerNotEnabled
  else .refused .illegalMicroOperation

/-- Reset (R190): every piece of CORE's state at its reset value; the host's later moves remain. -/
def State.afterReset (s : State) : State := { State.reset with host := s.host.tail }

/-- Take the host's move of this step off the list; the reply port carries nothing unless this step's
`READ` puts a record there. -/
def State.takeMove (s : State) : State := { s with host := s.host.tail, reply := none }

end Sys2Proof.Machine
end

