-- ==== Sys2Proof/Machine/Operands.lean ====
section
/-! DEFINITION. What the micro-operations read: BLK, ST and one round key (R29). Reading an element that
holds no value is a fault (R28). -/

namespace Sys2Proof.Machine

/-- Read `BLK` (R13). -/
def State.readBlk (s : State) : Except Fault Block :=
  match s.blk with
  | some b => .ok b
  | none => .error (.noValue .blk)

/-- Read `ST` (R11). -/
def State.readSt (s : State) : Except Fault ByteMatrix :=
  match s.st with
  | some m => .ok m
  | none => .error (.noValue .st)

/-- `MemRead(RK, r)`. No operation reads an entry above `NR` (R14, U7). -/
def State.readRk (s : State) (r : BitVec 4) : Except Fault ByteMatrix :=
  if r.toNat ≤ s.nr.toNat then
    match s.rk.read r.toNat with
    | some k => .ok k
    | none => .error (.noValue (.rk r))
  else .error (.roundKeyNotInUse r)

/-- `ST` put through a transform (R105). -/
def State.transformSt (f : ByteMatrix → ByteMatrix) (s : State) : Except Fault ByteMatrix :=
  match s.readSt with
  | .ok m => .ok (f m)
  | .error e => .error e

/-- `KeyXor(ST, MemRead(RK, r))` (R118, R119). -/
def State.xorRoundKey (r : BitVec 4) (s : State) : Except Fault ByteMatrix :=
  match s.readSt with
  | .ok m =>
    match s.readRk r with
    | .ok k => .ok (keyXor m k)
    | .error e => .error e
  | .error e => .error e

end Sys2Proof.Machine
end

