-- ==== Sys2Proof/Machine/Codec.lean ====
section
/-! DEFINITION. The micro-operations of the codec family: ENC and FIN (40_codec.md). -/

namespace Sys2Proof.Machine

/-- `ENC`: `ST <- Encode(BLK)` (R83). The only micro-operation that does not read `ST`. -/
def execEnc (s : State) : Host.Outcome State Fault Refusal :=
  microOp .enc 0 (match s.readBlk with | .ok b => .ok (encodeBlock b) | .error e => .error e) s

/-- `FIN`: `ST` unchanged, the record carries `Decode(ST)`, `PH <- DONE` (R84). -/
def execFin (s : State) : Host.Outcome State Fault Refusal :=
  microOp .fin 0 s.readSt s

end Sys2Proof.Machine
end

