-- ==== Sys2Proof/Machine/HostOps.lean ====
section
/-! DEFINITION. The host operations START (44_sequencer.md) and READ (45_trace_recorder.md), and the
table's reserved row. -/

namespace Sys2Proof.Machine

/-- `START ks, key, block`: no effect whatever while `PH = BUSY` (R126); else the launch when `ks` is legal
(R127) and the error entry when it is not (R172). -/
def execStart (ks : BitVec 16) (key block : Block) (s : State) : Host.Outcome State Fault Refusal :=
  if s.ph = .busy then .next s
  else
    match roundsFor ks with
    | some nr => .next (launch nr key block s)
    | none => .next (raiseInvalidKeySize ks s)

/-- `READ n`: returns `TR[n]` when `PH = DONE` and `n < SEQ`; otherwise the request is refused, which
returns no value, changes nothing and raises nothing (R50, R157, R176). -/
def execRead (n : BitVec 6) (s : State) : Host.Outcome State Fault Refusal :=
  if s.ph = .done ∧ n.toNat < s.seq.toNat then
    match s.tr.read n.toNat with
    | some rec => .next { s with reply := some rec }
    | none => .fault (.noValue (.tr n))
  else .next { s with reply := none }

/-- The reserved row: refused by name, given no meaning (R65). -/
def execReserved (_x : BitVec 4) (_s : State) : Host.Outcome State Fault Refusal :=
  .refused .illegalMicroOperation

end Sys2Proof.Machine
end

