-- ==== Sys2Proof/Machine/Rounds.lean ====
section
/-! DEFINITION. The round-transform micro-operations: SUB, ROT, MIX, ARKI, ARK (43_round_transforms.md). -/

namespace Sys2Proof.Machine

/-- `SUB r` on a CORE of a given configuration (R92): `ST <- ByteSubstitution(ST)`; `r` is a label only
(R115). -/
def execSubWith (c : Config) (r : BitVec 4) (s : State) : Host.Outcome State Fault Refusal :=
  microOp .sub r (s.transformSt (byteSubstitution c)) s

/-- `SUB r` with the table of R90 (R115). -/
def execSub (r : BitVec 4) (s : State) : Host.Outcome State Fault Refusal :=
  execSubWith Config.standard r s

/-- `ROT r`: `ST <- RowRotation(ST)`; `r` is not the rotation amount (R116). -/
def execRot (r : BitVec 4) (s : State) : Host.Outcome State Fault Refusal :=
  microOp .rot r (s.transformSt rowRotation) s

/-- `MIX r`: `ST <- ColumnMix(ST)` (R117). -/
def execMix (r : BitVec 4) (s : State) : Host.Outcome State Fault Refusal :=
  microOp .mix r (s.transformSt columnMix) s

/-- `ARKI`: `ST <- KeyXor(ST, MemRead(RK, 0))` (R118). -/
def execArki (s : State) : Host.Outcome State Fault Refusal :=
  microOp .arki 0 (s.xorRoundKey 0) s

/-- `ARK r`: `ST <- KeyXor(ST, MemRead(RK, r))`; `r` is the label and the index (R119). -/
def execArk (r : BitVec 4) (s : State) : Host.Outcome State Fault Refusal :=
  microOp .ark r (s.xorRoundKey r) s

end Sys2Proof.Machine
end

