-- ==== Sys2Proof/Machine/Dispatch.lean ====
section
/-! DEFINITION. exec: one arm per constructor of Instr, each a call of that instruction's own meaning. -/

namespace Sys2Proof.Machine

def exec (i : Instr) (s : State) : Host.Outcome State Fault Refusal :=
  match i with
  | .start ks key block => Sys2Proof.Machine.execStart ks key block s
  | .enc => Sys2Proof.Machine.execEnc s
  | .arki => Sys2Proof.Machine.execArki s
  | .sub r => Sys2Proof.Machine.execSub r s
  | .rot r => Sys2Proof.Machine.execRot r s
  | .mix r => Sys2Proof.Machine.execMix r s
  | .ark r => Sys2Proof.Machine.execArk r s
  | .fin => Sys2Proof.Machine.execFin s
  | .read n => Sys2Proof.Machine.execRead n s
  | .reserved x => Sys2Proof.Machine.execReserved x s

end Sys2Proof.Machine
end

