-- ==== Sys2Proof/Machine/Sequencer.lean ====
section
/-! DEFINITION. The control store (R129), what the machine executes next (R125, R131),
and the placing of a code word where the next step fetches it. -/

namespace Sys2Proof.Machine

/-- `ControlStore(nr, s)` (R129); `none` where R129 leaves it undefined. -/
def controlStore (nr s : Nat) : Option Uop :=
  if nr = 10 ∨ nr = 12 ∨ nr = 14 then
    if s = 0 then some { op := .enc, rnd := 0 }
    else if s = 1 then some { op := .arki, rnd := 0 }
    else if s ≤ 4 * nr - 3 then
      some
        { op := match (s - 2) % 4 with
            | 0 => .sub
            | 1 => .rot
            | 2 => .mix
            | _ => .ark
          rnd := BitVec.ofNat 4 (1 + (s - 2) / 4) }
    else if s = 4 * nr - 2 then some { op := .sub, rnd := BitVec.ofNat 4 nr }
    else if s = 4 * nr - 1 then some { op := .rot, rnd := BitVec.ofNat 4 nr }
    else if s = 4 * nr then some { op := .ark, rnd := BitVec.ofNat 4 nr }
    else if s = 4 * nr + 1 then some { op := .fin, rnd := 0 }
    else none
  else none

/-- The code word the next step executes. While `PH = BUSY` it is the control store's word and nothing on
the host's ports matters (R126, R131); else it is what the host presents, if anything (R125). -/
def State.fetch (s : State) : Except Fault (Option CodeWord) :=
  if s.ph = .busy then
    match controlStore s.nr.toNat s.seq.toNat with
    | some u => .ok (some (.uop (uopWord u)))
    | none => .error .controlStoreUndefined
  else
    match s.host.head? with
    | some (.command w) => .ok (some (.cmd w))
    | some (.request w) => .ok (some (.rd w))
    | some .quiet => .ok none
    | some .reset => .ok none
    | none => .ok none

/-- The first step index of the 14-round sequence at which the control store issues a `UOP` word; that
sequence issues every legal word (R65, R130). -/
def issueIndex (w : BitVec 7) : Option Nat :=
  (List.range 58).find? fun n =>
    match controlStore 14 n with
    | some u => decide (uopWord u = w)
    | none => false

/-- Put the sequencer where its next step executes the micro-operation of step `n` of the 14-round
sequence. CORE gets there only by an accepted `START 256` and its steps, so the data registers that hold
no value get what a `START` with zero key and zero block and an `ENC` would have left (R26, R127). -/
def State.atSequenceStep (s : State) (n : Nat) : State :=
  let zero : Block := Vector.replicate 16 0
  let km := s.km.getD (encodeBlock zero)
  { s with
    blk := some (s.blk.getD zero)
    km := some km
    st := some (s.st.getD (encodeBlock zero))
    rk := kgen km 14 s.rk
    seq := BitVec.ofNat 6 n
    nr := 14
    ph := .busy
    ecause := 0
    eval := 0
    host := .quiet :: s.host }

/-- Place a code word so that the next step fetches and runs it: a `CMD` or `RD` word on the host's port
with the sequencer at rest, a `UOP` word by moving the sequencer to a step that issues it. A `UOP` word
the control store never issues has no place (R62, R65): the state is left as it is. -/
def State.placeWord (s : State) (c : CodeWord) : State :=
  match c with
  | .cmd w => { s with ph := if s.ph = .busy then .idle else s.ph, host := .command w :: s.host }
  | .rd w => { s with ph := if s.ph = .busy then .idle else s.ph, host := .request w :: s.host }
  | .uop w =>
    match issueIndex w with
    | some n => s.atSequenceStep n
    | none => s

end Sys2Proof.Machine
end

