-- ==== Sys2Proof/Machine/Step.lean ====
section
/-! DEFINITION. One step of the machine: one atomic transition of CORE, with the host's move of that
moment (R48, R51, R125). -/

namespace Sys2Proof.Machine

/-- One step. The reset input wins in any phase (R190). Else the fetched word is decoded and executed; with
nothing to execute (no move of the host while the sequencer rests) the state stays (R133). A host move
that CORE does not take in its step, as every command or request while `PH = BUSY`, is gone (R126). -/
def step (s : State) : Host.Outcome State Fault Refusal :=
  match s.host.head? with
  | some .reset => .next s.afterReset
  | _ =>
    match s.fetch with
    | .error f => .fault f
    | .ok none => .next s.takeMove
    | .ok (some w) =>
      match decode w with
      | .ok i => exec i s.takeMove
      | .error _ => .refused .illegalMicroOperation

/-- The state `s` with the word of a table row placed where the next step fetches it; a word that is
none of any format leaves `s` as it is. -/
def State.withFetchWord (s : State) (nbits w : Nat) : State :=
  match codeWordOfTable nbits w with
  | some c => s.placeWord c
  | none => s

end Sys2Proof.Machine
end

