-- ==== Sys2Proof/Machine/Render.lean ====
section
/-! DEFINITION. Rendering: the text a Step Record stands for (R158 to R162). Pure functions of a stored
record; no micro-operation runs them. -/

namespace Sys2Proof.Machine

/-- The lower-case digit of a value 0..15 (R160). -/
def hexDigit (v : Nat) : Char := ("0123456789abcdef".toList).getD v '?'

/-- Two digits, the high one first (R45, R160). -/
def hexPair (v : Byte) : List Char := [hexDigit (v.toNat / 16), hexDigit (v.toNat % 16)]

/-- `HexByte(v)` (R160). -/
def hexByte (v : Byte) : String := String.ofList ('0' :: 'x' :: hexPair v)

/-- `RenderMatrix(m)`: four rows of four strings (R160). -/
def renderMatrix (m : ByteMatrix) : List (List String) :=
  m.toList.map fun row => row.toList.map hexByte

/-- `RenderCiphertext(b)`: 32 digits, byte 0 first, no prefix and no separator (R161). -/
def renderCiphertext (b : Block) : String := String.ofList (b.toList.flatMap hexPair)

/-- `RenderColour(c)` (R162). -/
def renderColour : Colour → String
  | .gray => "gray"
  | .red => "red"
  | .blue => "blue"
  | .purple => "purple"
  | .green => "green"
  | .cyan => "cyan"

/-- `Stem (Round r)`, the pattern of the source's "SubBytes (Round 3)" (R159); `decimal(r)` has no
leading zeros. -/
def roundName (stem : String) (r : Nat) : String := stem ++ " (Round " ++ toString r ++ ")"

/-- `Name(op, round)` (R159): three names are the source's, four are parameters. -/
def operationName (p : Config.DisplayParams) (op : Op) (r : Nat) : String :=
  match op with
  | .enc => "Initial State"
  | .arki => "AddRoundKey (Initial)"
  | .sub => roundName "SubBytes" r
  | .rot => p.nameRot r
  | .mix => p.nameMix r
  | .ark => p.nameArk r
  | .fin => p.nameFin

/-- The defaults R159 gives the four OPEN names; the description stays the caller's (R162). -/
def defaultParams (desc : Op → Option Nat → String) : Config.DisplayParams :=
  { nameRot := roundName "ShiftRows"
    nameMix := roundName "MixColumns"
    nameArk := roundName "AddRoundKey"
    nameFin := "Ciphertext"
    desc := desc }

/-- The source-shaped record (R158). -/
structure RenderedRecord where
  index       : Nat
  name        : String
  description : String
  grid        : List (List String)
  round       : Option Nat
  ciphertext  : Option String
  colour      : String
  deriving DecidableEq, Repr

/-- `Render(rec)` (R158). -/
def renderRecord (p : Config.DisplayParams) (r : StepRecord) : RenderedRecord :=
  { index := r.seq.toNat
    name := operationName p r.op ((r.round.getD 0).toNat)
    description := p.desc r.op (r.round.map BitVec.toNat)
    grid := renderMatrix r.mat
    round := r.round.map BitVec.toNat
    ciphertext := r.ct.map renderCiphertext
    colour := renderColour r.col }

end Sys2Proof.Machine
end

