-- ==== Sys2Proof/Machine/Assembler.lean ====
section
/-! DEFINITION. The text forms of R71: how an instruction is written down, and the pseudo-instructions. -/

namespace Sys2Proof.Machine

/-- `ROUND r` = `SUB r; ROT r; MIX r; ARK r` (R71). -/
def roundProgram (r : BitVec 4) : List Instr := [.sub r, .rot r, .mix r, .ark r]

/-- `FROUND r` = `SUB r; ROT r; ARK r` (R71). -/
def finalRoundProgram (r : BitVec 4) : List Instr := [.sub r, .rot r, .ark r]

/-- `PROGRAM nr`, the micro-operations of one invocation in order (R71). -/
def program (nr : Nat) : List Instr :=
  [.enc, .arki] ++ (List.range (nr - 1)).flatMap (fun q => roundProgram (BitVec.ofNat 4 (q + 1))) ++
    finalRoundProgram (BitVec.ofNat 4 nr) ++ [.fin]

/-- The text form of an instruction (R71): numbers decimal, `key` and `block` as 32 hexadecimal digits,
byte 0 first. The reserved row has no text form but the table's name. -/
def instrText : Instr → String
  | .start ks key block =>
    "START " ++ toString ks.toNat ++ ", " ++ renderCiphertext key ++ ", " ++ renderCiphertext block
  | .enc => "ENC"
  | .arki => "ARKI"
  | .sub r => "SUB " ++ toString r.toNat
  | .rot r => "ROT " ++ toString r.toNat
  | .mix r => "MIX " ++ toString r.toNat
  | .ark r => "ARK " ++ toString r.toNat
  | .fin => "FIN"
  | .read n => "READ " ++ toString n.toNat
  | .reserved _ => "(reserved)"

end Sys2Proof.Machine
end

