-- ==== Sys2Proof/Machine/BuildTrace.lean ====
section
/-! DEFINITION. BuildTrace (R134): one invocation as a pure function of its inputs, written from the source's
state machine and not from the sequencer, so that R135 relates two descriptions. The configuration with
its table is an argument (R92). -/

namespace Sys2Proof.Machine

/-- The builder's variables: the next index, the State Matrix, the records so far (R134). -/
structure Builder where
  n       : Nat
  st      : ByteMatrix
  records : List StepRecord

/-- Make `m` the State Matrix and append its record (R134). -/
def Builder.emit (b : Builder) (op : Op) (round : Option Nat) (m : ByteMatrix) (ct : Option Block) :
    Builder :=
  { n := b.n + 1
    st := m
    records := b.records ++
      [{ seq := BitVec.ofNat 6 b.n, op := op, round := round.map (BitVec.ofNat 4), col := colour op,
         mat := m, ct := ct }] }

/-- Init and InitialKeyAdd: records 0 and 1 (R134). -/
def Builder.initial (block key : Block) : Builder :=
  let b : Builder := { n := 0, st := encodeBlock block, records := [] }
  let b := b.emit .enc none (encodeBlock block) none
  b.emit .arki none (keyXor b.st (roundKey (encodeBlock key) 0)) none

/-- One main round `q`: four records (R134). -/
def Builder.mainRound (c : Config) (key : Block) (b : Builder) (q : Nat) : Builder :=
  let b := b.emit .sub (some q) (byteSubstitution c b.st) none
  let b := b.emit .rot (some q) (rowRotation b.st) none
  let b := b.emit .mix (some q) (columnMix b.st) none
  b.emit .ark (some q) (keyXor b.st (roundKey (encodeBlock key) q)) none

/-- The final round `nr`: three records, no ColumnMix (R134). -/
def Builder.finalRound (c : Config) (key : Block) (nr : Nat) (b : Builder) : Builder :=
  let b := b.emit .sub (some nr) (byteSubstitution c b.st) none
  let b := b.emit .rot (some nr) (rowRotation b.st) none
  b.emit .ark (some nr) (keyXor b.st (roundKey (encodeBlock key) nr)) none

/-- The Ciphertext record (R134). -/
def Builder.ciphertext (b : Builder) : Builder := b.emit .fin none b.st (some (decodeMatrix b.st))

/-- What one invocation returns: the error with its value, or the whole trace (R134). -/
inductive TraceResult where
  | invalidKeySize (ks : BitVec 16)
  | trace (t : List StepRecord)
  deriving DecidableEq, Repr

/-- The trace for a round count (R134). -/
def traceOfRounds (c : Config) (block key : Block) (nr : Nat) : List StepRecord :=
  (Builder.ciphertext (Builder.finalRound c key nr
    ((List.range (nr - 1)).foldl (fun b q => Builder.mainRound c key b (q + 1))
      (Builder.initial block key)))).records

/-- `BuildTrace(block, key, ks)` (R134). -/
def buildTrace (c : Config) (block key : Block) (ks : BitVec 16) : TraceResult :=
  match roundsFor ks with
  | some nr => .trace (traceOfRounds c block key nr.toNat)
  | none => .invalidKeySize ks

end Sys2Proof.Machine
end

