-- ==== Sys2Proof/Machine/ClosedForm.lean ====
section
/-! DEFINITION. The closed form of the substitution table (R91 (d)): the multiplicative inverse in GF(2^8)
modulo 0x11b, then the affine map A. A check on the table, and no part of the machine. -/

namespace Sys2Proof.Machine

/-- Multiplication by `x` in GF(2^8) modulo `x^8 + x^4 + x^3 + x + 1` (`0x11b`). -/
def gfDouble (a : Byte) : Byte := if a.msb then a <<< 1 ^^^ 0x1b else a <<< 1

/-- `a * b`, taking the lowest `n` bits of `b`, the lowest first. -/
def gfMulBits : Nat → Byte → Byte → Byte
  | 0, _, _ => 0
  | n + 1, a, b => (if b.getLsbD 0 then a else 0) ^^^ gfMulBits n (gfDouble a) (b >>> 1)

/-- Multiplication in GF(2^8) modulo `0x11b`. -/
def gfMul (a b : Byte) : Byte := gfMulBits 8 a b

/-- `inv(x)` (R91 (d)): `x` to the power 254, which is 0 for 0 and the multiplicative inverse for every
other `x`, since the 255 nonzero elements form a group. -/
def gfInv (x : Byte) : Byte :=
  let x2 := gfMul x x
  let x3 := gfMul x2 x
  let x6 := gfMul x3 x3
  let x12 := gfMul x6 x6
  let x15 := gfMul x12 x3
  let x30 := gfMul x15 x15
  let x60 := gfMul x30 x30
  let x63 := gfMul x60 x3
  let x126 := gfMul x63 x63
  let x127 := gfMul x126 x
  gfMul x127 x127

/-- `A(b) = b XOR rotl8(b,1) XOR rotl8(b,2) XOR rotl8(b,3) XOR rotl8(b,4) XOR 0x63` (R91 (d)). -/
def sboxAffine (b : Byte) : Byte :=
  b ^^^ b.rotateLeft 1 ^^^ b.rotateLeft 2 ^^^ b.rotateLeft 3 ^^^ b.rotateLeft 4 ^^^ 0x63

end Sys2Proof.Machine
end

