-- ==== Sys2Proof/Machine/Flags.lean ====
section
/-! DEFINITION. The status outputs (R20), CORE's only flags: pure functions of `PH` and `SEQ` with no state
of their own; and what else the host can read (R29). There are no arithmetic condition codes. -/

namespace Sys2Proof.Machine

/-- The number of a phase (R19). -/
def phaseCode : Phase → BitVec 2
  | .idle => 0
  | .busy => 1
  | .done => 2
  | .err => 3

/-- `READY = (PH != BUSY)` (R20). -/
def State.ready (s : State) : Bool := decide (s.ph ≠ .busy)

/-- `BUSY = (PH == BUSY)` (R20). -/
def State.busy (s : State) : Bool := decide (s.ph = .busy)

/-- `DONE = (PH == DONE)` (R20). -/
def State.done (s : State) : Bool := decide (s.ph = .done)

/-- `ERR = (PH == ERR)` (R20). -/
def State.errFlag (s : State) : Bool := decide (s.ph = .err)

/-- `TLEN = SEQ` (R20). -/
def State.tlen (s : State) : BitVec 6 := s.seq

/-- Everything the host may read at any time: the status outputs and the registers `NR`, `ECAUSE`, `EVAL`
(R20, R29, R137). -/
structure Status where
  ready  : Bool
  busy   : Bool
  done   : Bool
  err    : Bool
  tlen   : BitVec 6
  nr     : BitVec 4
  ecause : BitVec 2
  eval   : BitVec 16
  deriving DecidableEq, Repr

/-- The status the host reads; reading changes nothing (R49). -/
def State.status (s : State) : Status :=
  { ready := s.ready, busy := s.busy, done := s.done, err := s.errFlag, tlen := s.tlen,
    nr := s.nr, ecause := s.ecause, eval := s.eval }

/-- The reply of an enabled `READ` as the `REC` word on the port (R70). -/
def State.replyWord (s : State) : Option (BitVec 274) := s.reply.map recordWord

end Sys2Proof.Machine
end

