-- ==== Sys2Proof/Safety.lean ====
section
/-! DEFINITION. The terms in which claims are made: runs of several steps, the invariants of R26, what the
records of a trace look like (R154 to R156), and what a host move may be. -/

namespace Sys2Proof.Machine

/-- `k` steps, stopping at the first that answers no next state. -/
def runSteps : Nat → State → Host.Outcome State Fault Refusal
  | 0, s => .next s
  | k + 1, s =>
    match step s with
    | .next t => runSteps k t
    | .fault f => .fault f
    | .refused r => .refused r

/-- The host does not assert reset in the next `k` steps. -/
abbrev NoReset (k : Nat) (moves : List HostMove) : Prop := ∀ m ∈ moves.take k, m ≠ .reset

/-- The legal round counts (R18). -/
abbrev LegalRounds (nr : Nat) : Prop := nr = 10 ∨ nr = 12 ∨ nr = 14

/-- R26 (a). -/
abbrev IdleInv (s : State) : Prop := s.ph = .idle → s.seq.toNat = 0 ∧ s.ecause.toNat = 0

/-- R26 (b), and the model's own clause that `BLK` holds a value, which `ENC` reads (R28): log entry 16. -/
abbrev BusyInv (s : State) : Prop :=
  s.ph = .busy → LegalRounds s.nr.toNat ∧ s.seq.toNat ≤ 4 * s.nr.toNat + 1 ∧ s.ecause.toNat = 0 ∧
    (1 ≤ s.seq.toNat → s.st.isSome) ∧ s.blk.isSome

/-- R26 (c). -/
abbrev DoneInv (s : State) : Prop :=
  s.ph = .done → LegalRounds s.nr.toNat ∧ s.seq.toNat = 4 * s.nr.toNat + 2 ∧ s.ecause.toNat = 0

/-- R26 (d). -/
abbrev ErrInv (s : State) : Prop :=
  s.ph = .err → s.seq.toNat = 0 ∧ s.ecause.toNat = 1 ∧ s.eval.toNat ≠ 128 ∧ s.eval.toNat ≠ 192 ∧
    s.eval.toNat ≠ 256

/-- R26 (e), first half: while running and when done, the round keys in use are those of `KM`. -/
abbrev RoundKeysInv (s : State) : Prop :=
  s.ph = .busy ∨ s.ph = .done → ∃ km, s.km = some km ∧
    ∀ r, r ≤ s.nr.toNat → s.rk.read r = some (roundKey km r)

/-- R26 (e), second half: while running and when done, every record below `SEQ` is there with its index. -/
abbrev RecordsInv (s : State) : Prop :=
  s.ph = .busy ∨ s.ph = .done → ∀ n, n < s.seq.toNat →
    ∃ rec, s.tr.read n = some rec ∧ rec.seq.toNat = n

/-- Both storage spaces are in canonical form, every index below the space's depth (R40). -/
abbrev StorageInv (s : State) : Prop :=
  Memory.wf Config.rkDepth s.rk = true ∧ Memory.wf Config.trDepth s.tr = true

/-- The well-formed states: the clauses of R26, with two of the model's own, `BLK` while BUSY (log entry 16) and
the canonical form of the storage spaces (log entry 3). -/
structure Inv (s : State) : Prop where
  idle      : IdleInv s
  busy      : BusyInv s
  done      : DoneInv s
  err       : ErrInv s
  roundKeys : RoundKeysInv s
  records   : RecordsInv s
  storage   : StorageInv s

/-- A record is what the control store's step `n` of an `nr`-round invocation writes: its micro-operation,
its round index or none, its colour, and the ciphertext exactly on the last one (R152, R156). -/
abbrev RecordOfStep (nr n : Nat) (rec : StepRecord) : Prop :=
  ∃ u, controlStore nr n = some u ∧ rec = makeRecord (BitVec.ofNat 6 n) u.op u.rnd rec.mat

/-- While running and when done, each record below `SEQ` is its step's, and the last one's snapshot is
`ST` (R153, R154, R156). -/
abbrev TraceInv (s : State) : Prop :=
  s.ph = .busy ∨ s.ph = .done → ∀ n, n < s.seq.toNat →
    ∃ rec, s.tr.read n = some rec ∧ RecordOfStep s.nr.toNat n rec ∧
      (n + 1 = s.seq.toNat → s.st = some rec.mat)

/-- While running and when done, `TR` below `SEQ` is the trace that `BuildTrace` makes of the latched block, the
key whose matrix is `KM`, and `NR`, up to that length; and `ST` is the last record's snapshot (R134, R135). -/
abbrev BuiltInv (s : State) : Prop :=
  s.ph = .busy ∨ s.ph = .done → ∃ block km, s.blk = some block ∧ s.km = some km ∧
    ∀ n, n < s.seq.toNat → ∃ rec, s.tr.read n = some rec ∧
      (traceOfRounds Config.standard block (decodeMatrix km) s.nr.toNat)[n]? = some rec ∧
      (n + 1 = s.seq.toNat → s.st = some rec.mat)

/-- Every element that a micro-operation reads holds a value, and its round key is one in use (R28, R29,
R14). -/
abbrev OperandsHold (i : Instr) (s : State) : Prop :=
  match i with
  | .start _ _ _ => True
  | .enc => s.blk.isSome
  | .arki => s.st.isSome ∧ (s.rk.read 0).isSome
  | .sub _ => s.st.isSome
  | .rot _ => s.st.isSome
  | .mix _ => s.st.isSome
  | .ark r => s.st.isSome ∧ r.toNat ≤ s.nr.toNat ∧ (s.rk.read r.toNat).isSome
  | .fin => s.st.isSome
  | .read _ => True
  | .reserved _ => True

/-- The case table of R131: `m` is the matrix that the micro-operation `u` puts in `ST`. -/
abbrev NewMatrix (u : Uop) (s : State) (m : ByteMatrix) : Prop :=
  match u.op with
  | .enc => ∃ b, s.blk = some b ∧ m = encodeBlock b
  | .arki => ∃ m₀ k, s.st = some m₀ ∧ s.rk.read 0 = some k ∧ m = keyXor m₀ k
  | .sub => ∃ m₀, s.st = some m₀ ∧ m = byteSubstitution Config.standard m₀
  | .rot => ∃ m₀, s.st = some m₀ ∧ m = rowRotation m₀
  | .mix => ∃ m₀, s.st = some m₀ ∧ m = columnMix m₀
  | .ark => ∃ m₀ k, s.st = some m₀ ∧ s.rk.read u.rnd.toNat = some k ∧ m = keyXor m₀ k
  | .fin => s.st = some m

/-- What a micro-operation leaves as it was: every register but `ST`, `SEQ` and `PH`, all of `RK`, and all of
`TR` but the entry at the old `SEQ` (R29, R131). -/
abbrev MicroOpKeeps (s t : State) : Prop :=
  t.blk = s.blk ∧ t.km = s.km ∧ t.nr = s.nr ∧ t.ecause = s.ecause ∧ t.eval = s.eval ∧
    t.host = s.host ∧ t.reply = s.reply ∧ (∀ r, t.rk.read r = s.rk.read r) ∧
    ∀ n, n ≠ s.seq.toNat → t.tr.read n = s.tr.read n

/-- The seven micro-operations (R63). -/
abbrev IsMicroOp : Instr → Prop
  | .start _ _ _ => False
  | .enc => True
  | .arki => True
  | .sub _ => True
  | .rot _ => True
  | .mix _ => True
  | .ark _ => True
  | .fin => True
  | .read _ => False
  | .reserved _ => False

/-- The illegal `UOP` words by their two fields, as R65 lists them. -/
abbrev IllegalUopWord (op rnd : Nat) : Prop :=
  op = 7 ∨ ((op = 0 ∨ op = 1 ∨ op = 6) ∧ rnd ≠ 0) ∨ ((op = 2 ∨ op = 3 ∨ op = 5) ∧ (rnd = 0 ∨ rnd = 15)) ∨
    (op = 4 ∧ (rnd = 0 ∨ rnd = 14 ∨ rnd = 15))

/-- The presence bits, zero fill and colour that R68 asks of the `REC` word of a record of operation `op`. -/
abbrev RecordWordShape (op : Op) (w : BitVec 274) : Prop :=
  (w.getLsbD 260 = true ↔ op = .sub ∨ op = .rot ∨ op = .mix ∨ op = .ark) ∧
    (w.getLsbD 256 = true ↔ op = .fin) ∧
    (w.getLsbD 260 = false → w.extractLsb' 261 4 = 0) ∧
    (w.getLsbD 256 = false → w.extractLsb' 128 128 = 0) ∧
    w.extractLsb' 257 3 = colourCode (colour op)

/-- Where the fields of a record stand in its `REC` word (R66), its matrix cell by cell (R44) and its
ciphertext byte by byte (R43). -/
abbrev RecordWordLayout (r : StepRecord) (w : BitVec 274) : Prop :=
  w.extractLsb' 268 6 = r.seq ∧ w.extractLsb' 265 3 = opCode r.op ∧
    w.extractLsb' 261 7 = uopWord { op := r.op, rnd := r.round.getD 0 } ∧
    (∀ q, r.round = some q → w.extractLsb' 261 4 = q) ∧
    (∀ i j : Fin 4, w.extractLsb' (8 * (i.val + 4 * j.val)) 8 = r.mat[i][j]) ∧
    ∀ b, r.ct = some b → ∀ n : Fin 16, w.extractLsb' (128 + 8 * n.val) 8 = b[n]

/-- What the host can see of a state: the status, and of the trace what `READ` would return (R29, R50). -/
abbrev SameToHost (s t : State) : Prop :=
  s.status = t.status ∧ (s.ph = .done → ∀ n, n < s.seq.toNat → s.tr.read n = t.tr.read n)

end Sys2Proof.Machine
end

