-- ==== Sys2Proof/Certificates/Slice0/Obligations.lean ====
section
/-! DEFINITION. The statements for the provers: one definition each, listed in OBLIGATIONS.json. -/

open Sys2Proof Sys2Proof.Machine

/-- Decode and encode agree on every well-formed instruction (R61, R62, R63, R70). -/
def Obligations.DecodeEncodeRoundTrip : Prop :=
  ∀ i : Instr, i.wf = true → decode (encode i) = .ok i

/-- The other direction of the round trip: each word has at most one meaning, and no bit of it is ignored. -/
def Obligations.DecodedWordsAreEncodings : Prop :=
  ∀ (w : CodeWord) (i : Instr), decode w = .ok i → i.wf = true ∧ encode i = w

/-- R65: the list of illegal words, read off the two fields; refused by name, never issued. -/
def Obligations.IllegalMicroOperationsRefused : Prop :=
  (∀ w : BitVec 7,
    decode (.uop w) = .error .illegalMicroOperation ↔
      IllegalUopWord (w.extractLsb' 4 3).toNat (w.extractLsb' 0 4).toNat) ∧
  ∀ (nr n : Nat) (u : Uop), controlStore nr n = some u →
    ¬ IllegalUopWord ((uopWord u).extractLsb' 4 3).toNat ((uopWord u).extractLsb' 0 4).toNat

/-- A sanity statement on a few words of R71 and of program P1. -/
def Obligations.SpecWordsDecode : Prop :=
  decode (.uop 0x00) = .ok .enc ∧ decode (.uop 0x10) = .ok .arki ∧ decode (.uop 0x21) = .ok (.sub 1) ∧
  decode (.uop 0x3e) = .ok (.rot 14) ∧ decode (.uop 0x4d) = .ok (.mix 13) ∧
  decode (.uop 0x5a) = .ok (.ark 10) ∧ decode (.uop 0x60) = .ok .fin ∧
  decode (.rd 41) = .ok (.read 41) ∧
  decode (.cmd 0x00800000000000000000000000000000000000000000000000000000000000000041) =
    .ok (.start 128 (Vector.replicate 16 0) #v[0x41, 0, 0, 0, 0, 0, 0, 0, 0, 0, 0, 0, 0, 0, 0, 0])

/-- The REC layout loses nothing of a record (R66), of any record that meets R66 to R68. That `decodeRecord` takes such records also where
hardware never writes them (R155, R156) is the model's choice: log entry 21. -/
def Obligations.RecordWordRoundTrip : Prop :=
  ∀ r : StepRecord, recordConsistent r = true → decodeRecord (recordWord r) = .ok r

/-- R66 and R68: where the fields stand, the two equivalences, the zero fill and the colour, for what hardware writes and for what the decoder takes. -/
def Obligations.RecordPresenceBits : Prop :=
  (∀ (n : BitVec 6) (op : Op) (rnd : BitVec 4) (m : ByteMatrix),
    RecordWordShape op (recordWord (makeRecord n op rnd m)) ∧
    RecordWordLayout (makeRecord n op rnd m) (recordWord (makeRecord n op rnd m))) ∧
  ∀ (w : BitVec 274) (r : StepRecord), decodeRecord w = .ok r →
    RecordWordShape r.op w ∧ RecordWordLayout r w

/-- R80, R81, and the contract of R82. -/
def Obligations.CodecIsColumnMajorAndInverse : Prop :=
  (∀ (b : Block) (n : Fin 16), (encodeBlock b)[n.val % 4][n.val / 4] = b[n]) ∧
  (∀ (b : Block) (i j : Fin 4), (encodeBlock b)[i][j] = b[i.val + 4 * j.val]) ∧
  (∀ (m : ByteMatrix) (n : Fin 16), (decodeMatrix m)[n] = m[n.val % 4][n.val / 4]) ∧
  (∀ b : Block, decodeMatrix (encodeBlock b) = b) ∧
  ∀ m : ByteMatrix, encodeBlock (decodeMatrix m) = m

/-- R95, on integers. -/
def Obligations.RoundKeyIdentity : Prop :=
  ∀ (k : ByteMatrix) (r : Nat) (i j : Fin 4), r ≤ 14 →
    ((roundKey k r)[i][j]).toNat = ((k[i][j]).toNat + r * 16 + i.val * 4 + j.val) % 256

/-- R96 (row-major offset on a column-major key) and R100 (b). -/
def Obligations.RoundKeyFromKeyBytes : Prop :=
  ∀ (key : Block) (r : Nat) (i j : Fin 4), r ≤ 14 →
    ((roundKey (encodeBlock key) r)[i][j]).toNat =
      ((key[i.val + 4 * j.val]).toNat + 16 * r + 4 * i.val + j.val) % 256 ∧
    (roundKey (encodeBlock key) (r + 1))[i][j] = (roundKey (encodeBlock key) r)[i][j] + 16

/-- R97. -/
def Obligations.GenerateListsTheRoundKeys : Prop :=
  ∀ (key : Block) (nr : Nat), (generate key nr).length = nr + 1 ∧
    ∀ r, r ≤ nr → (generate key nr)[r]? = some (roundKey (encodeBlock key) r)

/-- R91 (a) on the lookup, (b) and (c). The table is the one the spec supplies from general knowledge (R90). -/
def Obligations.SubstitutionIsInjectiveWithoutFixedPoint : Prop :=
  (∀ x y : Byte, sboxRead Config.standard x = sboxRead Config.standard y → x = y) ∧
  (∀ x : Byte, sboxRead Config.standard x ≠ x) ∧
  (Config.standard.sbox.toList.map BitVec.toNat).sum = 32640

/-- R107, for every table with the named property, as R92 asks. -/
def Obligations.ByteSubstitutionIsBijective : Prop :=
  (∀ c : Config, c.SboxBijective → Function.Bijective (byteSubstitution c)) ∧
  ∀ (m : ByteMatrix) (i j : Fin 4), (∀ a b : Fin 4, m[a][b] = 0) →
    (byteSubstitution Config.standard m)[i][j] = 0x63

/-- R108, both ways of saying it. -/
def Obligations.RowRotationRotatesLeft : Prop :=
  ∀ (m : ByteMatrix) (r c : Fin 4),
    (rowRotation m)[r][c] = m[r][(c.val + r.val) % 4] ∧
    (rowRotation m)[r][(c.val + 4 - r.val) % 4] = m[r][c]

/-- R109 (a) and (e). -/
def Obligations.RowRotationFourTimesIsIdentity : Prop :=
  (∀ m : ByteMatrix, rowRotation (rowRotation (rowRotation (rowRotation m))) = m) ∧
  ∀ (m : ByteMatrix) (r c : Fin 4),
    (decodeMatrix (rowRotation m))[r.val + 4 * c.val] =
      (decodeMatrix m)[r.val + 4 * ((c.val + r.val) % 4)]

/-- R112, the collapse. -/
def Obligations.ColumnMixCollapses : Prop :=
  ∀ (m : ByteMatrix) (r c : Fin 4),
    (columnMix m)[r][c] = m[(0 : Fin 4)][c] ^^^ m[(1 : Fin 4)][c] ^^^ m[(2 : Fin 4)][c] ^^^ m[(3 : Fin 4)][c]

/-- R111 (a) and (b). -/
def Obligations.ColumnMixTwiceIsZero : Prop :=
  (∀ (m : ByteMatrix) (r c : Fin 4), (columnMix (columnMix m))[r][c] = 0) ∧
  ∃ m m' : ByteMatrix, m ≠ m' ∧ columnMix m = columnMix m'

/-- R114. -/
def Obligations.KeyXorLaws : Prop :=
  ∀ m k : ByteMatrix, keyXor (keyXor m k) k = m ∧
    keyXor m (Vector.replicate 4 (Vector.replicate 4 0)) = m ∧
    keyXor m m = Vector.replicate 4 (Vector.replicate 4 0) ∧ keyXor m k = keyXor k m ∧
    Function.Bijective fun x : ByteMatrix => keyXor x k

/-- R83, with the common writes of R131 and the frame of R29. That it completes in every BUSY state with `SEQ` below 58,
whatever word the control store has there, is the model's choice: log entry 9. -/
def Obligations.EncLoadsTheBlock : Prop :=
  ∀ (s : State) (b : Block),
    s.ph = .busy → s.seq.toNat < 58 → s.blk = some b →
    encode .enc = .uop 0b0000000 ∧
    (∀ (nr n : Nat) (u : Uop), controlStore nr n = some u → u.op = .enc → n = 0) ∧
    ∃ (t : State) (m' : ByteMatrix), exec .enc s = .next t ∧
      (∀ i j : Fin 4, m'[i][j] = b[i.val + 4 * j.val]) ∧
      t.st = some m' ∧ t.seq.toNat = s.seq.toNat + 1 ∧ t.ph = .busy ∧
      t.tr.read s.seq.toNat = some { seq := s.seq, op := .enc, round := none, col := .gray, mat := m', ct := none } ∧
      MicroOpKeeps s t

/-- R118, with the common writes of R131 and the frame of R29. That it completes in every BUSY state with `SEQ` below 58,
whatever word the control store has there, is the model's choice: log entry 9. -/
def Obligations.ArkiAddsRoundKeyZero : Prop :=
  ∀ (s : State) (m k : ByteMatrix),
    s.ph = .busy → s.seq.toNat < 58 → s.st = some m → s.rk.read 0 = some k →
    encode .arki = .uop 0b0010000 ∧
    (∀ (nr n : Nat) (u : Uop), controlStore nr n = some u → u.op = .arki → n = 1) ∧
    ∃ (t : State) (m' : ByteMatrix), exec .arki s = .next t ∧
      (∀ i j : Fin 4, m'[i][j] = m[i][j] ^^^ k[i][j]) ∧
      t.st = some m' ∧ t.seq.toNat = s.seq.toNat + 1 ∧ t.ph = .busy ∧
      t.tr.read s.seq.toNat = some { seq := s.seq, op := .arki, round := none, col := .red, mat := m', ct := none } ∧
      MicroOpKeeps s t

/-- R115, with the common writes of R131 and the frame of R29. That it completes in every BUSY state with `SEQ` below 58,
whatever word the control store has there, is the model's choice: log entry 9. -/
def Obligations.SubSubstitutesEveryByte : Prop :=
  ∀ (c : Config) (r : BitVec 4) (s : State) (m : ByteMatrix),
    1 ≤ r.toNat → r.toNat ≤ 14 → s.ph = .busy → s.seq.toNat < 58 → s.st = some m →
    encode (.sub r) = .uop (0b010#3 ++ r) ∧
    exec (.sub r) s = execSubWith Config.standard r s ∧
    ∃ (t : State) (m' : ByteMatrix), execSubWith c r s = .next t ∧
      (∀ i j : Fin 4, m'[i][j] = sboxRead c m[i][j]) ∧
      t.st = some m' ∧ t.seq.toNat = s.seq.toNat + 1 ∧ t.ph = .busy ∧
      t.tr.read s.seq.toNat = some { seq := s.seq, op := .sub, round := some r, col := .blue, mat := m', ct := none } ∧
      MicroOpKeeps s t

/-- R116, with the common writes of R131 and the frame of R29. That it completes in every BUSY state with `SEQ` below 58,
whatever word the control store has there, is the model's choice: log entry 9. -/
def Obligations.RotRotatesEveryRow : Prop :=
  ∀ (r : BitVec 4) (s : State) (m : ByteMatrix),
    1 ≤ r.toNat → r.toNat ≤ 14 → s.ph = .busy → s.seq.toNat < 58 → s.st = some m →
    encode (.rot r) = .uop (0b011#3 ++ r) ∧
    ∃ (t : State) (m' : ByteMatrix), exec (.rot r) s = .next t ∧
      (∀ i c : Fin 4, m'[i][c] = m[i][(c.val + i.val) % 4]) ∧
      t.st = some m' ∧ t.seq.toNat = s.seq.toNat + 1 ∧ t.ph = .busy ∧
      t.tr.read s.seq.toNat = some { seq := s.seq, op := .rot, round := some r, col := .purple, mat := m', ct := none } ∧
      MicroOpKeeps s t

/-- R117, with the common writes of R131 and the frame of R29. That it completes in every BUSY state with `SEQ` below 58,
whatever word the control store has there, is the model's choice: log entry 9. -/
def Obligations.MixCollapsesEveryColumn : Prop :=
  ∀ (r : BitVec 4) (s : State) (m : ByteMatrix),
    1 ≤ r.toNat → r.toNat ≤ 13 → s.ph = .busy → s.seq.toNat < 58 → s.st = some m →
    encode (.mix r) = .uop (0b100#3 ++ r) ∧
    (∀ (nr n : Nat) (u : Uop), controlStore nr n = some u → u.op = .mix → u.rnd.toNat < nr) ∧
    ∃ (t : State) (m' : ByteMatrix), exec (.mix r) s = .next t ∧
      (∀ i c : Fin 4, m'[i][c] =
        m[(0 : Fin 4)][c] ^^^ m[(1 : Fin 4)][c] ^^^ m[(2 : Fin 4)][c] ^^^ m[(3 : Fin 4)][c]) ∧
      t.st = some m' ∧ t.seq.toNat = s.seq.toNat + 1 ∧ t.ph = .busy ∧
      t.tr.read s.seq.toNat = some { seq := s.seq, op := .mix, round := some r, col := .green, mat := m', ct := none } ∧
      MicroOpKeeps s t

/-- R119, with the common writes of R131 and the frame of R29. That it completes in every BUSY state with `SEQ` below 58,
whatever word the control store has there, is the model's choice: log entry 9. -/
def Obligations.ArkAddsItsRoundKey : Prop :=
  ∀ (r : BitVec 4) (s : State) (m k : ByteMatrix),
    1 ≤ r.toNat → r.toNat ≤ 14 → r.toNat ≤ s.nr.toNat → s.ph = .busy → s.seq.toNat < 58 →
    s.st = some m → s.rk.read r.toNat = some k →
    encode (.ark r) = .uop (0b101#3 ++ r) ∧
    (∀ (nr n : Nat) (u : Uop), controlStore nr n = some u → u.op = .ark →
      1 ≤ u.rnd.toNat ∧ u.rnd.toNat ≤ nr) ∧
    ∃ (t : State) (m' : ByteMatrix), exec (.ark r) s = .next t ∧
      (∀ i j : Fin 4, m'[i][j] = m[i][j] ^^^ k[i][j]) ∧
      t.st = some m' ∧ t.seq.toNat = s.seq.toNat + 1 ∧ t.ph = .busy ∧
      t.tr.read s.seq.toNat = some { seq := s.seq, op := .ark, round := some r, col := .red, mat := m', ct := none } ∧
      MicroOpKeeps s t

/-- R84, with the common writes of R131 and the frame of R29. That it completes in every BUSY state with `SEQ` below 58,
whatever word the control store has there, is the model's choice: log entry 9. -/
def Obligations.FinEmitsTheCiphertext : Prop :=
  ∀ (s : State) (m : ByteMatrix),
    s.ph = .busy → s.seq.toNat < 58 → s.st = some m →
    encode .fin = .uop 0b1100000 ∧
    (∀ (nr n : Nat) (u : Uop), controlStore nr n = some u → u.op = .fin → n = 4 * nr + 1) ∧
    ∃ (t : State) (m' : ByteMatrix), exec .fin s = .next t ∧
      m' = m ∧ t.done = true ∧ t.ready = true ∧ t.busy = false ∧
      t.st = some m' ∧ t.seq.toNat = s.seq.toNat + 1 ∧ t.ph = .done ∧
      t.tr.read s.seq.toNat = some { seq := s.seq, op := .fin, round := none, col := .cyan, mat := m', ct := some (decodeMatrix m') } ∧
      MicroOpKeeps s t

/-- The frame of the seven micro-operations, over all of them and all states. -/
def Obligations.MicroOperationsFrame : Prop :=
  ∀ (i : Instr) (s t : State), IsMicroOp i → exec i s = .next t → MicroOpKeeps s t

/-- The stops of a micro-operation. None is reached by a step from a well-formed state (Inv, log entry 16). R28 and U7 ask for the first two kinds (log entries 4 and 5);
the not-enabled and out-of-range faults are the model's own names (log entry 9). -/
def Obligations.MicroOperationsStopByName : Prop :=
  (∀ (i : Instr) (s : State), IsMicroOp i → i.wf = true → s.ph ≠ .busy →
    exec i s = .fault .sequencerNotEnabled) ∧
  (∀ (i : Instr) (s : State), IsMicroOp i → i.wf = true → i ≠ .enc → s.ph = .busy → s.st = none →
    exec i s = .fault (.noValue .st)) ∧
  (∀ s : State, s.ph = .busy → s.blk = none → exec .enc s = .fault (.noValue .blk)) ∧
  (∀ s : State, s.ph = .busy → s.st ≠ none → s.rk.read 0 = none →
    exec .arki s = .fault (.noValue (.rk 0))) ∧
  (∀ (r : BitVec 4) (s : State), (Instr.ark r).wf = true → s.ph = .busy → s.st ≠ none →
    r.toNat ≤ s.nr.toNat → s.rk.read r.toNat = none → exec (.ark r) s = .fault (.noValue (.rk r))) ∧
  (∀ (r : BitVec 4) (s : State), (Instr.ark r).wf = true → s.ph = .busy → s.st ≠ none →
    s.nr.toNat < r.toNat → exec (.ark r) s = .fault (.roundKeyNotInUse r)) ∧
  (∀ (i : Instr) (s : State), IsMicroOp i → i.wf = true → s.ph = .busy → OperandsHold i s →
    58 ≤ s.seq.toNat → exec i s = .fault .traceIndexOutOfRange) ∧
  ∀ (i : Instr) (s : State), IsMicroOp i → i.wf = true → s.ph = .busy → OperandsHold i s →
    s.seq.toNat < 58 → ∃ t, exec i s = .next t

/-- R127 with KGEN (R98), and what it leaves alone. -/
def Obligations.StartLaunchesAnInvocation : Prop :=
  ∀ (ks : BitVec 16) (nr : BitVec 4) (key block : Block) (s : State), s.ph ≠ .busy →
    ((ks.toNat = 128 ∧ nr.toNat = 10) ∨ (ks.toNat = 192 ∧ nr.toNat = 12) ∨
      (ks.toNat = 256 ∧ nr.toNat = 14)) →
    ∃ t : State, exec (.start ks key block) s = .next t ∧
      t.nr = nr ∧ t.blk = some block ∧ t.km = some (encodeBlock key) ∧
      (∀ r, r ≤ nr.toNat → t.rk.read r = some (roundKey (encodeBlock key) r)) ∧
      (∀ r, nr.toNat < r → t.rk.read r = s.rk.read r) ∧
      t.seq.toNat = 0 ∧ t.ecause.toNat = 0 ∧ t.eval.toNat = 0 ∧ t.ph = .busy ∧
      t.st = s.st ∧ (∀ n, t.tr.read n = s.tr.read n) ∧ t.host = s.host ∧ t.reply = s.reply

/-- R172, the entry of the one exception. -/
def Obligations.IllegalSelectorEntersTheErrorState : Prop :=
  ∀ (ks : BitVec 16) (key block : Block) (s : State), s.ph ≠ .busy →
    ks.toNat ≠ 128 → ks.toNat ≠ 192 → ks.toNat ≠ 256 →
    ∃ t : State, exec (.start ks key block) s = .next t ∧
      t.ph = .err ∧ t.ecause.toNat = 1 ∧ t.eval = ks ∧ t.seq.toNat = 0 ∧
      t.nr = s.nr ∧ t.blk = s.blk ∧ t.km = s.km ∧ t.st = s.st ∧
      (∀ r, t.rk.read r = s.rk.read r) ∧ (∀ n, t.tr.read n = s.tr.read n) ∧
      t.host = s.host ∧ t.reply = s.reply

/-- R126: while READY = 0 an asserted CMD_VALID has no effect whatever. -/
def Obligations.StartWhileBusyHasNoEffect : Prop :=
  ∀ (ks : BitVec 16) (key block : Block) (s : State), s.ph = .busy →
    exec (.start ks key block) s = .next s

/-- R157 (and the handover of R50). The reply field is the model's own: log entry 2. -/
def Obligations.ReadReturnsTheRecordOrNothing : Prop :=
  (∀ (n : BitVec 6) (s : State) (rec : StepRecord), s.ph = .done → n.toNat < s.seq.toNat →
    s.tr.read n.toNat = some rec → exec (.read n) s = .next { s with reply := some rec }) ∧
  (∀ (n : BitVec 6) (s : State), (s.ph ≠ .done ∨ s.seq.toNat ≤ n.toNat) →
    exec (.read n) s = .next { s with reply := none })

/-- R65 gives these words no meaning and no trap, and asks a decoder to refuse them. That `exec` refuses them in every state, before
it looks at the phase, is the model's choice: log entry 10. -/
def Obligations.ReservedWordsHaveNoMeaning : Prop :=
  (∀ (x : BitVec 4) (s : State), exec (.reserved x) s = .refused .illegalMicroOperation) ∧
  ∀ (i : Instr) (s : State), i.wf = false → exec i s = .refused .illegalMicroOperation

/-- A step runs the decoded instruction; the list of host moves and the reply are the model's own (log entries 1 and 2). -/
def Obligations.StepRunsTheFetchedInstruction : Prop :=
  (∀ (s : State) (w : CodeWord) (i : Instr), s.host.head? ≠ some .reset → s.fetch = .ok (some w) →
    decode w = .ok i → step s = exec i { s with host := s.host.tail, reply := none }) ∧
  ∀ s : State, s.host.head? ≠ some .reset → s.fetch = .ok none →
    step s = .next { s with host := s.host.tail, reply := none }

/-- Which agent moves (R125) and what it executes (R126, R131). -/
def Obligations.FetchFollowsTheControlStore : Prop :=
  (∀ (s : State) (u : Uop), s.ph = .busy → s.host.head? ≠ some .reset →
    controlStore s.nr.toNat s.seq.toNat = some u → step s = exec (uopInstr u) s.takeMove) ∧
  (∀ (s : State) (w : BitVec 272) (rest : List HostMove), s.ph ≠ .busy → s.host = .command w :: rest →
    step s = exec (decodeCmd w) s.takeMove) ∧
  (∀ (s : State) (w : BitVec 6) (rest : List HostMove), s.ph ≠ .busy → s.host = .request w :: rest →
    step s = exec (.read w) s.takeMove) ∧
  (∀ s : State, s.ph ≠ .busy → (s.host = [] ∨ s.host.head? = some .quiet) → step s = .next s.takeMove)

/-- R131: the step does not depend on the command port; R126: a command offered while BUSY is not remembered. -/
def Obligations.RunningSequencerIgnoresThePorts : Prop :=
  ∀ (s : State) (m m' : HostMove) (rest : List HostMove), s.ph = .busy → m ≠ .reset → m' ≠ .reset →
    step { s with host := m :: rest } = step { s with host := m' :: rest }

/-- R190 with the values of R27; "holds no value" is the spec's own reset value (R28). -/
def Obligations.ResetAndTheEndsOfAnInvocation : Prop :=
  (∀ s : State, s.host.head? = some .reset →
    ∃ t : State, step s = .next t ∧ t.ph = .idle ∧ t.seq.toNat = 0 ∧ t.nr.toNat = 0 ∧
      t.ecause.toNat = 0 ∧ t.eval.toNat = 0 ∧ t.blk = none ∧ t.km = none ∧ t.st = none ∧
      (∀ r, t.rk.read r = none) ∧ (∀ n, t.tr.read n = none) ∧
      t.ready = true ∧ t.busy = false ∧ t.done = false ∧ t.errFlag = false ∧ t.tlen.toNat = 0) ∧
  ∀ s t : State, s.ph = .busy → step s = .next t → t.ph ≠ .busy →
    (s.host.head? = some .reset ∧ t.ph = .idle) ∨
    (t.ph = .done ∧ ∃ u, controlStore s.nr.toNat s.seq.toNat = some u ∧ u.op = .fin)

/-- R27, the values the spec gives. -/
def Obligations.ResetStateIsTheSpecs : Prop :=
  State.reset.ph = .idle ∧ State.reset.seq.toNat = 0 ∧ State.reset.nr.toNat = 0 ∧
  State.reset.ecause.toNat = 0 ∧ State.reset.eval.toNat = 0 ∧ State.reset.blk = none ∧
  State.reset.km = none ∧ State.reset.st = none ∧ (∀ r, State.reset.rk.read r = none) ∧
  ∀ n, State.reset.tr.read n = none

/-- R19: no other transition exists. -/
def Obligations.PhaseTransitions : Prop :=
  (phaseCode .idle = 0 ∧ phaseCode .busy = 1 ∧ phaseCode .done = 2 ∧ phaseCode .err = 3) ∧
  ∀ s t : State, s.host.head? ≠ some .reset → step s = .next t →
    (s.ph = .busy → t.ph = .busy ∨
      (t.ph = .done ∧ ∃ u, controlStore s.nr.toNat s.seq.toNat = some u ∧ u.op = .fin)) ∧
    (s.ph ≠ .busy → t.ph = s.ph ∨
      ((∃ w, s.host.head? = some (.command w)) ∧ (t.ph = .busy ∨ t.ph = .err)))

/-- R17: no branch, no other increment, no wrap. -/
def Obligations.SequenceCounterMoves : Prop :=
  ∀ s t : State, s.host.head? ≠ some .reset → step s = .next t →
    (s.ph = .busy → t.seq.toNat = s.seq.toNat + 1) ∧
    (s.ph ≠ .busy → (∃ w, s.host.head? = some (.command w)) → t.seq.toNat = 0) ∧
    (s.ph ≠ .busy → (∀ w, s.host.head? ≠ some (.command w)) → t.seq = s.seq)

/-- R29, the table of writers, as one frame over all instructions. -/
def Obligations.RegistersHaveTheirWritersOnly : Prop :=
  ∀ (i : Instr) (s t : State), exec i s = .next t →
    ((∀ ks key block, i ≠ .start ks key block) →
      t.blk = s.blk ∧ t.km = s.km ∧ t.nr = s.nr ∧ t.ecause = s.ecause ∧ t.eval = s.eval ∧
      ∀ r, t.rk.read r = s.rk.read r) ∧
    (¬ IsMicroOp i → t.st = s.st ∧ ∀ n, t.tr.read n = s.tr.read n) ∧
    ((∀ ks key block, i ≠ .start ks key block) → ¬ IsMicroOp i → t.seq = s.seq ∧ t.ph = s.ph) ∧
    (IsMicroOp i → i ≠ .fin → t.ph = s.ph) ∧ (i = .fin → t.st = s.st) ∧
    t.host = s.host ∧ ((∀ n, i ≠ .read n) → t.reply = s.reply)

/-- The base case of StepKeepsTheInvariant, StepKeepsTheTraceInvariant and StepKeepsTheBuiltTrace. -/
def Obligations.ResetMeetsTheInvariants : Prop :=
  Inv State.reset ∧ TraceInv State.reset ∧ BuiltInv State.reset

/-- R26 is inductive: legal round counts, the range of SEQ, the cause and value registers, the round keys of KM, the indices of the records.
Inv adds that `BLK` holds a value while BUSY (log entry 16) and the canonical storage (log entry 3). -/
def Obligations.StepKeepsTheInvariant : Prop :=
  ∀ s t : State, Inv s → step s = .next t → Inv t

/-- R131: the step never faults; R28: no rule reads an absent element. The premise Inv is R26 with two clauses of the model's own, that `BLK`
holds a value while BUSY (log entry 16) and that the storage is canonical (log entry 3); R26 alone does not give the conclusion. -/
def Obligations.WellFormedStatesNeverStop : Prop :=
  ∀ s : State, Inv s → ∃ t, step s = .next t

/-- The canonical form of the model's storage (log entry 3) and the index ranges of R40. -/
def Obligations.StorageStaysCanonical : Prop :=
  ∀ s t : State, StorageInv s → step s = .next t → StorageInv t

/-- Records are in step order, none skipped, none rewritten, each a copy of the State Matrix after its step. -/
def Obligations.StepKeepsTheTraceInvariant : Prop :=
  ∀ s t : State, TraceInv s → step s = .next t → TraceInv t

/-- R135: the machine refines the pure function of R134, from every state at rest, not only from reset. -/
def Obligations.RunBuildsTheTrace : Prop :=
  ∀ (s : State) (w : BitVec 272) (rest : List HostMove) (ks : BitVec 16) (key block : Block),
    s.ph ≠ .busy → s.host = .command w :: rest → decode (.cmd w) = .ok (.start ks key block) →
    match buildTrace Config.standard block key ks with
    | .trace tr => ∀ nr, roundsFor ks = some nr → NoReset (4 * nr.toNat + 2) rest →
        tr.length = 4 * nr.toNat + 2 ∧
        ∃ t : State, runSteps (4 * nr.toNat + 3) s = .next t ∧ t.ph = .done ∧
          t.seq.toNat = 4 * nr.toNat + 2 ∧ ∀ n, n < 4 * nr.toNat + 2 → t.tr.read n = tr[n]?
    | .invalidKeySize k => k = ks ∧ roundsFor ks = none ∧
        ∃ t : State, step s = .next t ∧ t.ph = .err ∧ t.seq.toNat = 0

/-- R132, progress, and the step counts of R198. -/
def Obligations.InvocationTakesExactlyItsSteps : Prop :=
  ∀ (s : State) (w : BitVec 272) (rest : List HostMove) (ks : BitVec 16) (key block : Block) (nr : BitVec 4),
    s.ph ≠ .busy → s.host = .command w :: rest → decode (.cmd w) = .ok (.start ks key block) →
    roundsFor ks = some nr → NoReset (4 * nr.toNat + 2) rest →
    (∀ k, k ≤ 4 * nr.toNat + 1 →
      ∃ t : State, runSteps (k + 1) s = .next t ∧ t.ph = .busy ∧ t.seq.toNat = k ∧ t.nr = nr) ∧
    ∃ t : State, runSteps (4 * nr.toNat + 3) s = .next t ∧ t.ph = .done

/-- R136: not on the phase, on earlier invocations, on reset history, or on what the host does while BUSY. -/
def Obligations.ResultDependsOnTheInputsOnly : Prop :=
  ∀ (s s' : State) (w : BitVec 272) (rest rest' : List HostMove) (ks : BitVec 16) (key block : Block),
    s.ph ≠ .busy → s'.ph ≠ .busy → s.host = .command w :: rest → s'.host = .command w :: rest' →
    decode (.cmd w) = .ok (.start ks key block) →
    (∀ nr, roundsFor ks = some nr → NoReset (4 * nr.toNat + 2) rest → NoReset (4 * nr.toNat + 2) rest' →
      ∃ t t' : State, runSteps (4 * nr.toNat + 3) s = .next t ∧
        runSteps (4 * nr.toNat + 3) s' = .next t' ∧ SameToHost t t') ∧
    (roundsFor ks = none →
      ∃ t t' : State, step s = .next t ∧ step s' = .next t' ∧
        t.ph = t'.ph ∧ t.seq = t'.seq ∧ t.ecause = t'.ecause ∧ t.eval = t'.eval)

/-- No branching on data values, over two runs. -/
def Obligations.DataNeverSteersControl : Prop :=
  ∀ s s' t t' : State, s.ph = .busy → s'.ph = .busy → s.nr = s'.nr → s.seq = s'.seq →
    s.host.head? ≠ some .reset → s'.host.head? ≠ some .reset → step s = .next t → step s' = .next t' →
    s.fetch = s'.fetch ∧ t.seq = t'.seq ∧ t.ph = t'.ph ∧ t.nr = t'.nr

/-- R129, R130 and the text form PROGRAM of R71. That the store answers none off its domain is the model's reading: log entry 14. -/
def Obligations.ControlStoreIsTheProgram : Prop :=
  (∀ nr ∈ [10, 12, 14],
    (program nr).map encode =
      ((List.range (4 * nr + 2)).filterMap (controlStore nr)).map (fun u => .uop (uopWord u)) ∧
    ((List.range (4 * nr + 2)).filterMap (controlStore nr)).countP (fun u => decide (u.op = .sub)) = nr ∧
    ((List.range (4 * nr + 2)).filterMap (controlStore nr)).countP (fun u => decide (u.op = .rot)) = nr ∧
    ((List.range (4 * nr + 2)).filterMap (controlStore nr)).countP (fun u => decide (u.op = .mix)) = nr - 1 ∧
    ((List.range (4 * nr + 2)).filterMap (controlStore nr)).countP (fun u => decide (u.op = .ark)) = nr) ∧
  (∀ nr s : Nat, 4 * nr + 1 < s → controlStore nr s = none) ∧
  ∀ nr s : Nat, ¬ LegalRounds nr → controlStore nr s = none

/-- R130. -/
def Obligations.ControlStoreCommonPrefix : Prop :=
  (∀ n < 40, controlStore 10 n = controlStore 12 n ∧ controlStore 12 n = controlStore 14 n) ∧
  controlStore 10 40 = some { op := .ark, rnd := 10 } ∧ controlStore 12 40 = some { op := .mix, rnd := 10 } ∧
  controlStore 14 40 = some { op := .mix, rnd := 10 } ∧
  (∀ n < 48, controlStore 12 n = controlStore 14 n) ∧
  controlStore 12 48 = some { op := .ark, rnd := 12 } ∧ controlStore 14 48 = some { op := .mix, rnd := 12 }

/-- The shape of the pure trace, R156 read off R134. -/
def Obligations.BuiltTraceShape : Prop :=
  ∀ (c : Config) (block key : Block) (nr : Nat), LegalRounds nr →
    (traceOfRounds c block key nr).length = 4 * nr + 2 ∧
    ∀ (n : Nat) (rec : StepRecord), (traceOfRounds c block key nr)[n]? = some rec → RecordOfStep nr n rec

/-- R155, on the trace that RunBuildsTheTrace shows the machine to hold. -/
def Obligations.LastRecordCarriesTheCiphertext : Prop :=
  ∀ (c : Config) (block key : Block) (nr : Nat), LegalRounds nr →
    ∃ a z : StepRecord, (traceOfRounds c block key nr)[4 * nr]? = some a ∧
      (traceOfRounds c block key nr)[4 * nr + 1]? = some z ∧ z.op = .fin ∧
      z.ct = some (decodeMatrix z.mat) ∧ z.mat = a.mat ∧
      (recordWord z).extractLsb' 128 128 = (recordWord z).extractLsb' 0 128

/-- R57, retention, and the end of it. -/
def Obligations.TraceIsKeptUntilTheNextStart : Prop :=
  ∀ s t : State, s.ph = .done → step s = .next t →
    ((s.host.head? = none ∨ s.host.head? = some .quiet ∨ ∃ w, s.host.head? = some (.request w)) →
      t.status = s.status ∧ ∀ n, t.tr.read n = s.tr.read n) ∧
    ((∃ w, s.host.head? = some (.command w)) →
      t.ph ≠ .done ∧ t.seq.toNat = 0 ∧ (∀ n, t.tr.read n = s.tr.read n) ∧
      ∀ n : BitVec 6, exec (.read n) t = .next { t with reply := none })

/-- R20 with the invariant of R26, under the premise Inv, which adds two clauses to it (log entries 3 and 16). -/
def Obligations.StatusOutputsByPhase : Prop :=
  (∀ s : State, (s.ready = true ↔ s.ph ≠ .busy) ∧ (s.busy = true ↔ s.ph = .busy) ∧
    (s.done = true ↔ s.ph = .done) ∧ (s.errFlag = true ↔ s.ph = .err) ∧ s.tlen = s.seq) ∧
  ∀ s : State, Inv s → ((s.ph = .idle ∨ s.errFlag = true) → s.tlen.toNat = 0) ∧
    (s.done = true → s.tlen.toNat = 4 * s.nr.toNat + 2)

/-- R151: nothing is lost. The parameters of R159 and R162 stay arbitrary. -/
def Obligations.RenderingLosesNothing : Prop :=
  (∀ (p : Config.DisplayParams) (r r' : StepRecord), recordConsistent r = true → recordConsistent r' = true →
    renderRecord p r = renderRecord p r' → r = r') ∧
  ∀ (p : Config.DisplayParams) (r r' : StepRecord), renderRecord p r = renderRecord p r' →
    r.seq = r'.seq ∧ r.round = r'.round ∧ r.col = r'.col ∧ r.mat = r'.mat ∧ r.ct = r'.ct

/-- R160 and R161 (no prefix on the ciphertext: D14, the spec's reading). -/
def Obligations.HexTextForms : Prop :=
  (∀ v : Byte, ∃ hi lo : Char, (hexByte v).toList = ['0', 'x', hi, lo] ∧
    "0123456789abcdef".toList[v.toNat / 16]? = some hi ∧ "0123456789abcdef".toList[v.toNat % 16]? = some lo) ∧
  hexByte 0 = "0x00" ∧ hexByte 10 = "0x0a" ∧ hexByte 65 = "0x41" ∧ hexByte 255 = "0xff" ∧
  (∀ m : ByteMatrix, (renderMatrix m).length = 4 ∧ ∀ i j : Fin 4, ∃ row,
    (renderMatrix m)[i.val]? = some row ∧ row.length = 4 ∧ row[j.val]? = some (hexByte m[i][j])) ∧
  ∀ b : Block, (renderCiphertext b).toList.length = 32 ∧ ∀ n : Fin 16, ∃ hi lo : Char,
    (renderCiphertext b).toList[2 * n.val]? = some hi ∧ (renderCiphertext b).toList[2 * n.val + 1]? = some lo ∧
    "0123456789abcdef".toList[b[n].toNat / 16]? = some hi ∧ "0123456789abcdef".toList[b[n].toNat % 16]? = some lo

/-- R91 (d): the guard against a slip in the table of R90. No rule of the machine depends on it. -/
def Obligations.TableIsTheClosedForm : Prop :=
  gfInv 0 = 0 ∧ (∀ x : Byte, x ≠ 0 → gfMul x (gfInv x) = 1) ∧
  ∀ x : Byte, sboxRead Config.standard x = sboxAffine (gfInv x)

/-- R43, and with it R44, R61, R62 and R63: the positions themselves, which a round trip alone does not fix. -/
def Obligations.PackingAndWordPositions : Prop :=
  (∀ (b : Block) (n : Fin 16), (packBlock b).extractLsb' (8 * n.val) 8 = b[n]) ∧
  (∀ (m : ByteMatrix) (i j : Fin 4), (packMatrix m).extractLsb' (8 * (i.val + 4 * j.val)) 8 = m[i][j]) ∧
  (∀ (ks : BitVec 16) (key block : Block), ∃ w : BitVec 272, encode (.start ks key block) = .cmd w ∧
    w.extractLsb' 256 16 = ks ∧
    ∀ n : Fin 16, w.extractLsb' (128 + 8 * n.val) 8 = key[n] ∧ w.extractLsb' (8 * n.val) 8 = block[n]) ∧
  (∀ (w : BitVec 272) (ks : BitVec 16) (key block : Block), decode (.cmd w) = .ok (.start ks key block) →
    w.extractLsb' 256 16 = ks ∧
    ∀ n : Fin 16, w.extractLsb' (128 + 8 * n.val) 8 = key[n] ∧ w.extractLsb' (8 * n.val) 8 = block[n]) ∧
  (∀ u : Uop, (uopWord u).extractLsb' 4 3 = opCode u.op ∧ (uopWord u).extractLsb' 0 4 = u.rnd) ∧
  [Op.enc, .arki, .sub, .rot, .mix, .ark, .fin].map opCode = [0, 1, 2, 3, 4, 5, 6]

/-- R131 at the step itself, with the word the control store has at `SEQ`. The premise Inv is R26 with the clauses of log entries 3 and 16, kept by every
step (StepKeepsTheInvariant); the fields host and reply are the model's own (log entries 1 and 2). -/
def Obligations.SequencerStepIsTheTableOfR131 : Prop :=
  (∀ s : State, Inv s → s.ph = .busy → s.host.head? ≠ some .reset →
    ∃ (u : Uop) (m : ByteMatrix) (t : State), controlStore s.nr.toNat s.seq.toNat = some u ∧
      NewMatrix u s m ∧ step s = .next t ∧ t.st = some m ∧
      t.tr.read s.seq.toNat = some (makeRecord s.seq u.op u.rnd m) ∧
      t.seq.toNat = s.seq.toNat + 1 ∧ t.tlen = t.seq ∧
      (u.op = .fin → t.ph = .done ∧ t.done = true ∧ t.ready = true ∧ t.busy = false) ∧
      (u.op ≠ .fin → t.ph = .busy ∧ t.done = s.done ∧ t.ready = s.ready ∧ t.busy = s.busy) ∧
      MicroOpKeeps { s with host := s.host.tail, reply := none } t) ∧
  ∀ s t : State, s.ph ≠ .busy → s.host.head? ≠ some .reset → step s = .next t →
    t.st = s.st ∧ (∀ n, t.tr.read n = s.tr.read n) ∧ t.seq.toNat ≤ s.seq.toNat

/-- R135 as an invariant: step by step, the machine's trace is the pure function's, a prefix while BUSY and all of it in DONE. -/
def Obligations.StepKeepsTheBuiltTrace : Prop :=
  ∀ s t : State, Inv s → BuiltInv s → step s = .next t → BuiltInv t
end

