-- ==== Sys2Proof/Laws/Data.lean ====
section
/-! SUPPORT. Cells of the pure functions, one lemma each, and the packing of blocks and matrices (R43, R44). -/

namespace Sys2Proof.Machine

/-- A matrix is its cells. -/
theorem matrix_ext {m m' : ByteMatrix} (h : ∀ i j (_ : i < 4) (_ : j < 4), m[i][j] = m'[i][j]) : m = m' := by
  apply Vector.ext; intro i hi
  apply Vector.ext; intro j hj
  exact h i j hi hj

/-- A block is its bytes. -/
theorem block_ext {b b' : Block} (h : ∀ n (_ : n < 16), b[n] = b'[n]) : b = b' := by
  exact Vector.ext h

@[simp] theorem encodeBlock_cell {i j : Nat} (hi : i < 4) (hj : j < 4) (b : Block) : (encodeBlock b)[i][j] = b[i + 4 * j] := by
  simp [encodeBlock]

@[simp] theorem decodeMatrix_byte (m : ByteMatrix) {n : Nat} (hn : n < 16) :
    (decodeMatrix m)[n] = m[n % 4][n / 4] := by simp [decodeMatrix]

@[simp] theorem roundKey_cell {i j : Nat} (hi : i < 4) (hj : j < 4) (k : ByteMatrix) (r : Nat) :
    (roundKey k r)[i][j] = k[i][j] + BitVec.ofNat 8 (r * 16 + i * 4 + j) := by simp [roundKey]

@[simp] theorem byteSubstitution_cell {i j : Nat} (hi : i < 4) (hj : j < 4) (c : Config) (m : ByteMatrix) :
    (byteSubstitution c m)[i][j] = sboxRead c m[i][j] := by simp [byteSubstitution]

@[simp] theorem rowRotation_cell {i j : Nat} (hi : i < 4) (hj : j < 4) (m : ByteMatrix) :
    (rowRotation m)[i][j] = m[i][(j + i) % 4] := by simp [rowRotation]

@[simp] theorem columnMix_cell {i j : Nat} (hi : i < 4) (hj : j < 4) (m : ByteMatrix) :
    (columnMix m)[i][j] =
      m[i][j] ^^^ m[(i + 1) % 4][j] ^^^ m[(i + 2) % 4][j] ^^^ m[(i + 3) % 4][j] := by simp [columnMix]

@[simp] theorem keyXor_cell {i j : Nat} (hi : i < 4) (hj : j < 4) (m k : ByteMatrix) :
    (keyXor m k)[i][j] = m[i][j] ^^^ k[i][j] := by
  simp [keyXor]

@[simp] theorem unpackBlock_byte (v : BitVec 128) {n : Nat} (hn : n < 16) :
    (unpackBlock v)[n] = v.extractLsb' (8 * n) 8 := by simp [unpackBlock]

/-- Bit `k` of byte `n` of a block is bit `8n + k` of its packing (R43). -/
theorem getLsbD_packBlock (b : Block) (n : Fin 16) (k : Nat) (hk : k < 8) :
    (packBlock b).getLsbD (8 * n.val + k) = b[n].getLsbD k := by
  have e : ∀ a, a = k → ∀ x : Byte, x.getLsbD a = x.getLsbD k := by rintro _ rfl _; rfl
  fin_cases n <;> simp only [packBlock, BitVec.getLsbD_append] <;>
    (repeat first | rw [if_pos (by omega)] | rw [if_neg (by omega)]) <;>
    exact e _ (by omega) _

/-- Unpacking a packed block gives it back. -/
@[simp] theorem unpackBlock_packBlock (b : Block) : unpackBlock (packBlock b) = b := by
  apply block_ext
  intro n hn
  rw [unpackBlock_byte]
  apply BitVec.eq_of_getLsbD_eq
  intro k hk
  have h := getLsbD_packBlock b ⟨n, hn⟩ k hk
  simp only at h
  rw [BitVec.getLsbD_extractLsb', h]
  simp [hk]

/-- Packing an unpacked vector gives it back. -/
@[simp] theorem packBlock_unpackBlock (v : BitVec 128) : packBlock (unpackBlock v) = v := by
  apply BitVec.eq_of_getLsbD_eq
  intro k hk
  have h := getLsbD_packBlock (unpackBlock v) ⟨k / 8, by omega⟩ (k % 8) (by omega)
  simp only [Fin.getElem_fin, unpackBlock_byte, BitVec.getLsbD_extractLsb'] at h
  simp only [show 8 * (k / 8) + k % 8 = k by omega] at h
  simpa [show k % 8 < 8 by omega] using h

end Sys2Proof.Machine
end

