-- ==== Sys2Proof/Laws/Sequencer.lean ====
section
/-! SUPPORT. The control store and the fetch: what the words it issues decode to, and what it can issue. -/

namespace Sys2Proof.Machine

/-- A micro-operation's word decodes to it exactly when its operand is legal (R65). -/
theorem decodeUop_uopWord (u : Uop) :
    decodeUop (uopWord u) =
      if uopLegal u.op u.rnd then .ok (uopInstr u) else .error .illegalMicroOperation := by
  obtain ⟨op, rnd⟩ := u
  cases op <;> revert rnd <;> decide

/-- The control store is defined on exactly its domain (R129). -/
theorem controlStore_isSome (nr n : Nat) :
    (controlStore nr n).isSome = true ↔ (nr = 10 ∨ nr = 12 ∨ nr = 14) ∧ n ≤ 4 * nr + 1 := by
  unfold controlStore
  by_cases h : nr = 10 ∨ nr = 12 ∨ nr = 14
  · rw [if_pos h]
    repeat' split
    all_goals simp [h]
    all_goals omega
  · simp [h]

/-- Every micro-operation the control store issues has a legal operand, and a round key index in use
(R64, R119). -/
theorem controlStore_legal {nr n : Nat} {u : Uop} (h : controlStore nr n = some u) :
    uopLegal u.op u.rnd = true ∧ u.rnd.toNat ≤ nr := by
  have hd := (controlStore_isSome nr n).1 (by simp [h])
  obtain ⟨hnr, hn⟩ := hd
  have all : ∀ nr ∈ [10, 12, 14], ∀ n < 58, ∀ u ∈ controlStore nr n,
      uopLegal u.op u.rnd = true ∧ u.rnd.toNat ≤ nr := by decide
  exact all nr (by simpa using hnr) n (by omega) u h

/-- `FIN` is issued at the last step and nowhere else; `ENC` at the first and nowhere else (R129). -/
theorem controlStore_ends {nr n : Nat} {u : Uop} (h : controlStore nr n = some u) :
    (u.op = .fin ↔ n = 4 * nr + 1) ∧ (u.op = .enc ↔ n = 0) := by
  have hd := (controlStore_isSome nr n).1 (by simp [h])
  obtain ⟨hnr, hn⟩ := hd
  have all : ∀ nr ∈ [10, 12, 14], ∀ n < 58, ∀ u ∈ controlStore nr n,
      (u.op = .fin ↔ n = 4 * nr + 1) ∧ (u.op = .enc ↔ n = 0) := by decide
  exact all nr (by simpa using hnr) n (by omega) u h

/-- While `PH = BUSY` inside the control store's domain, the fetched word is the store's and decodes to its
micro-operation. -/
theorem fetch_busy {s : State} {u : Uop} (hb : s.ph = .busy)
    (h : controlStore s.nr.toNat s.seq.toNat = some u) :
    s.fetch = .ok (some (.uop (uopWord u))) ∧ decode (.uop (uopWord u)) = .ok (uopInstr u) := by
  refine ⟨by simp [State.fetch, hb, h], ?_⟩
  simp [decode, decodeUop_uopWord, (controlStore_legal h).1]

end Sys2Proof.Machine
end

