-- ==== Sys2Proof/Laws/State.lean ====
section
/-! SUPPORT. What each named update of the state leaves in each field: one lemma per field per update. -/

namespace Sys2Proof.Machine

section LaunchFields

variable (nr : BitVec 4) (key block : Block) (s : State)

@[simp] theorem launch_blk : (launch nr key block s).blk = some block := rfl

@[simp] theorem launch_km : (launch nr key block s).km = some (encodeBlock key) := rfl

@[simp] theorem launch_st : (launch nr key block s).st = s.st := rfl

@[simp] theorem launch_rk : (launch nr key block s).rk = kgen (encodeBlock key) nr.toNat s.rk := rfl

@[simp] theorem launch_tr : (launch nr key block s).tr = s.tr := rfl

@[simp] theorem launch_seq : (launch nr key block s).seq = 0 := rfl

@[simp] theorem launch_nr : (launch nr key block s).nr = nr := rfl

@[simp] theorem launch_ph : (launch nr key block s).ph = .busy := rfl

@[simp] theorem launch_ecause : (launch nr key block s).ecause = 0 := rfl

@[simp] theorem launch_eval : (launch nr key block s).eval = 0 := rfl

@[simp] theorem launch_host : (launch nr key block s).host = s.host := rfl

@[simp] theorem launch_reply : (launch nr key block s).reply = s.reply := rfl

end LaunchFields

section RaiseinvalidkeysizeFields

variable (ks : BitVec 16) (s : State)

@[simp] theorem raiseInvalidKeySize_blk : (raiseInvalidKeySize ks s).blk = s.blk := rfl

@[simp] theorem raiseInvalidKeySize_km : (raiseInvalidKeySize ks s).km = s.km := rfl

@[simp] theorem raiseInvalidKeySize_st : (raiseInvalidKeySize ks s).st = s.st := rfl

@[simp] theorem raiseInvalidKeySize_rk : (raiseInvalidKeySize ks s).rk = s.rk := rfl

@[simp] theorem raiseInvalidKeySize_tr : (raiseInvalidKeySize ks s).tr = s.tr := rfl

@[simp] theorem raiseInvalidKeySize_seq : (raiseInvalidKeySize ks s).seq = 0 := rfl

@[simp] theorem raiseInvalidKeySize_nr : (raiseInvalidKeySize ks s).nr = s.nr := rfl

@[simp] theorem raiseInvalidKeySize_ph : (raiseInvalidKeySize ks s).ph = .err := rfl

@[simp] theorem raiseInvalidKeySize_ecause : (raiseInvalidKeySize ks s).ecause = 1 := rfl

@[simp] theorem raiseInvalidKeySize_eval : (raiseInvalidKeySize ks s).eval = ks := rfl

@[simp] theorem raiseInvalidKeySize_host : (raiseInvalidKeySize ks s).host = s.host := rfl

@[simp] theorem raiseInvalidKeySize_reply : (raiseInvalidKeySize ks s).reply = s.reply := rfl

end RaiseinvalidkeysizeFields

section TakemoveFields

variable (s : State)

@[simp] theorem takeMove_blk : (s.takeMove).blk = s.blk := rfl

@[simp] theorem takeMove_km : (s.takeMove).km = s.km := rfl

@[simp] theorem takeMove_st : (s.takeMove).st = s.st := rfl

@[simp] theorem takeMove_rk : (s.takeMove).rk = s.rk := rfl

@[simp] theorem takeMove_tr : (s.takeMove).tr = s.tr := rfl

@[simp] theorem takeMove_seq : (s.takeMove).seq = s.seq := rfl

@[simp] theorem takeMove_nr : (s.takeMove).nr = s.nr := rfl

@[simp] theorem takeMove_ph : (s.takeMove).ph = s.ph := rfl

@[simp] theorem takeMove_ecause : (s.takeMove).ecause = s.ecause := rfl

@[simp] theorem takeMove_eval : (s.takeMove).eval = s.eval := rfl

@[simp] theorem takeMove_host : (s.takeMove).host = s.host.tail := rfl

@[simp] theorem takeMove_reply : (s.takeMove).reply = none := rfl

end TakemoveFields

section AfterresetFields

variable (s : State)

@[simp] theorem afterReset_blk : (s.afterReset).blk = none := rfl

@[simp] theorem afterReset_km : (s.afterReset).km = none := rfl

@[simp] theorem afterReset_st : (s.afterReset).st = none := rfl

@[simp] theorem afterReset_rk : (s.afterReset).rk = { cells := [] } := rfl

@[simp] theorem afterReset_tr : (s.afterReset).tr = { cells := [] } := rfl

@[simp] theorem afterReset_seq : (s.afterReset).seq = 0 := rfl

@[simp] theorem afterReset_nr : (s.afterReset).nr = 0 := rfl

@[simp] theorem afterReset_ph : (s.afterReset).ph = .idle := rfl

@[simp] theorem afterReset_ecause : (s.afterReset).ecause = 0 := rfl

@[simp] theorem afterReset_eval : (s.afterReset).eval = 0 := rfl

@[simp] theorem afterReset_host : (s.afterReset).host = s.host.tail := rfl

@[simp] theorem afterReset_reply : (s.afterReset).reply = none := rfl

end AfterresetFields

end Sys2Proof.Machine
end

