-- ==== Sys2Proof/Laws/Storage.lean ====
section
/-! SUPPORT. The storage spaces: a read after a write, the canonical form, and what KGEN leaves. -/

namespace Sys2Proof.Machine

variable {α : Type}

theorem readCells_writeCells (cells : List (Nat × α)) (n k : Nat) (v : α) :
    Memory.readCells (Memory.writeCells cells n v) k =
      if n = k then some v else Memory.readCells cells k := by
  induction cells with
  | nil => simp [Memory.writeCells, Memory.readCells]
  | cons c rest ih =>
    obtain ⟨i, u⟩ := c
    simp only [Memory.writeCells]
    split
    · simp [Memory.readCells]
    · split
      · rename_i hi; subst hi; by_cases h : i = k <;> simp [Memory.readCells, h]
      · rename_i hi
        by_cases h : i = k
        · subst h; simp [Memory.readCells, Ne.symm hi]
        · simp [Memory.readCells, h, ih]

/-- A read after a write to the same index gives the value written. -/
@[simp] theorem Memory.read_write_same (m : Memory α) (n : Nat) (v : α) :
    (m.write n v).read n = some v := by
  simp [Memory.read, Memory.write, readCells_writeCells]

/-- A write leaves every other index alone. -/
theorem Memory.read_write_ne (m : Memory α) {n k : Nat} (v : α) (h : n ≠ k) :
    (m.write n v).read k = m.read k := by
  simp [Memory.read, Memory.write, readCells_writeCells, h]

@[simp] theorem Memory.read_empty (n : Nat) : ({ cells := [] } : Memory α).read n = none := rfl

@[simp] theorem Memory.wf_empty (depth : Nat) : Memory.wf depth ({ cells := [] } : Memory α) = true := rfl

theorem fst_mem_writeCells {cells : List (Nat × α)} {n : Nat} {v : α} {a : Nat}
    (h : a ∈ (Memory.writeCells cells n v).map Prod.fst) : a = n ∨ a ∈ cells.map Prod.fst := by
  induction cells with
  | nil => simpa [Memory.writeCells] using h
  | cons c rest ih =>
    obtain ⟨i, u⟩ := c
    simp only [Memory.writeCells] at h
    split at h
    · simpa using h
    · split at h
      · simp only [List.map_cons, List.mem_cons] at h ⊢; tauto
      · simp only [List.map_cons, List.mem_cons] at h ⊢
        rcases h with h | h
        · exact .inr (.inl h)
        · rcases ih h with h | h
          · exact .inl h
          · exact .inr (.inr h)

theorem pairwise_writeCells {cells : List (Nat × α)} (n : Nat) (v : α)
    (h : (cells.map Prod.fst).Pairwise (· < ·)) :
    ((Memory.writeCells cells n v).map Prod.fst).Pairwise (· < ·) := by
  induction cells with
  | nil => simp [Memory.writeCells]
  | cons c rest ih =>
    obtain ⟨i, u⟩ := c
    simp only [List.map_cons, List.pairwise_cons] at h
    simp only [Memory.writeCells]
    split
    · rename_i hn
      simp only [List.map_cons, List.pairwise_cons, List.mem_cons]
      refine ⟨?_, h⟩
      rintro a (rfl | ha)
      · exact hn
      · exact Nat.lt_trans hn (h.1 a ha)
    · split
      · rename_i hi; subst hi; simpa using h
      · rename_i h1 h2
        simp only [List.map_cons, List.pairwise_cons]
        refine ⟨fun a ha => ?_, ih h.2⟩
        rcases fst_mem_writeCells ha with rfl | ha
        · omega
        · exact h.1 a ha

/-- Every write to an index of the space keeps the canonical form. -/
theorem Memory.wf_write {depth : Nat} {m : Memory α} {n : Nat} (v : α) (hn : n < depth)
    (h : Memory.wf depth m = true) : Memory.wf depth (m.write n v) = true := by
  simp only [Memory.wf, Bool.and_eq_true, decide_eq_true_eq, List.all_eq_true] at h ⊢
  refine ⟨pairwise_writeCells n v h.1, fun c hc => ?_⟩
  have hc' : c.1 ∈ (Memory.writeCells m.cells n v).map Prod.fst := List.mem_map_of_mem hc
  rcases fst_mem_writeCells hc' with he | he
  · omega
  · obtain ⟨d, hd, e⟩ := List.mem_map.1 he
    exact e ▸ h.2 d hd

theorem kgen_succ (km : ByteMatrix) (nr : Nat) (rk : Memory ByteMatrix) :
    kgen km (nr + 1) rk = (kgen km nr rk).write (nr + 1) (roundKey km (nr + 1)) := by
  simp [kgen, List.range_succ]

/-- KGEN writes `RoundKey(KM, r)` to every entry up to `NR` and leaves the others (R98). -/
theorem read_kgen (km : ByteMatrix) (nr : Nat) (rk : Memory ByteMatrix) (r : Nat) :
    (kgen km nr rk).read r = if r ≤ nr then some (roundKey km r) else rk.read r := by
  induction nr with
  | zero =>
    by_cases h : r = 0
    · subst h; simp [kgen]
    · rw [if_neg (by omega)]
      simpa [kgen] using Memory.read_write_ne rk (roundKey km 0) (Ne.symm h)
  | succ n ih =>
    rw [kgen_succ]
    by_cases h : n + 1 = r
    · subst h; simp
    · rw [Memory.read_write_ne _ _ h, ih]
      by_cases h' : r ≤ n
      · rw [if_pos h', if_pos (by omega)]
      · rw [if_neg h', if_neg (by omega)]

/-- KGEN keeps the bank's canonical form when every index it writes is one of the bank's. -/
theorem wf_kgen {km : ByteMatrix} {nr : Nat} {rk : Memory ByteMatrix} {depth : Nat} (hnr : nr < depth)
    (h : Memory.wf depth rk = true) : Memory.wf depth (kgen km nr rk) = true := by
  induction nr with
  | zero => simpa [kgen] using Memory.wf_write (roundKey km 0) hnr h
  | succ n ih => rw [kgen_succ]; exact Memory.wf_write _ hnr (ih (by omega))

end Sys2Proof.Machine
end

