-- ==== Sys2Proof/Laws/Ops.lean ====
section
/-! SUPPORT. What each shared operation can do, said once: microOp, the operands, START, READ and step. -/

namespace Sys2Proof.Machine

variable {s t : State}

/-- The state a committed micro-operation leaves (R131). -/
def afterMicroOp (op : Op) (rnd : BitVec 4) (m : ByteMatrix) (s : State) : State :=
  { s with
    st := some m
    tr := s.tr.write s.seq.toNat (makeRecord s.seq op rnd m)
    seq := s.seq + 1
    ph := if op = .fin then .done else s.ph }

/-- A micro-operation answers a next state in exactly one way: legal, enabled, its operands read, its
record in range. -/
theorem microOp_next_iff {op : Op} {rnd : BitVec 4} {newSt : Except Fault ByteMatrix} :
    microOp op rnd newSt s = .next t ↔
      uopLegal op rnd = true ∧ s.ph = .busy ∧ s.seq.toNat < Config.trDepth ∧
        ∃ m, newSt = .ok m ∧ t = afterMicroOp op rnd m s := by
  unfold microOp commitMicroOp
  by_cases h1 : uopLegal op rnd = true
  · by_cases h2 : s.ph = .busy
    · cases newSt with
      | error e => simp [h1, h2]
      | ok m =>
        by_cases h3 : s.seq.toNat < Config.trDepth
        · simp [h1, h2, h3, afterMicroOp, eq_comm]
        · simp [h1, h2, h3]
    · simp [h1, h2]
  · simp [h1]

theorem readSt_eq_ok {m : ByteMatrix} : s.readSt = .ok m ↔ s.st = some m := by
  unfold State.readSt; cases s.st <;> simp

theorem readBlk_eq_ok {b : Block} : s.readBlk = .ok b ↔ s.blk = some b := by
  unfold State.readBlk; cases s.blk <;> simp

theorem readRk_eq_ok {r : BitVec 4} {k : ByteMatrix} :
    s.readRk r = .ok k ↔ r.toNat ≤ s.nr.toNat ∧ s.rk.read r.toNat = some k := by
  unfold State.readRk
  by_cases h : r.toNat ≤ s.nr.toNat
  · cases hk : s.rk.read r.toNat <;> simp [h]
  · simp [h]

theorem transformSt_eq_ok {f : ByteMatrix → ByteMatrix} {m' : ByteMatrix} :
    s.transformSt f = .ok m' ↔ ∃ m, s.st = some m ∧ m' = f m := by
  unfold State.transformSt State.readSt
  cases s.st <;> simp [eq_comm]

theorem xorRoundKey_eq_ok {r : BitVec 4} {m' : ByteMatrix} :
    s.xorRoundKey r = .ok m' ↔
      ∃ m k, s.st = some m ∧ r.toNat ≤ s.nr.toNat ∧ s.rk.read r.toNat = some k ∧ m' = keyXor m k := by
  unfold State.xorRoundKey
  cases hm : s.readSt with
  | error e =>
    have : s.st = none := by
      cases h : s.st with
      | none => rfl
      | some m => simp [readSt_eq_ok.2 h] at hm
    simp [this]
  | ok m =>
    rw [readSt_eq_ok] at hm
    cases hk : s.readRk r with
    | error e =>
      simp only [reduceCtorEq, false_iff, not_exists, not_and]
      intro m1 k _ h1 h2
      simp [readRk_eq_ok.2 ⟨h1, h2⟩] at hk
    | ok k =>
      obtain ⟨h1, h2⟩ := readRk_eq_ok.1 hk
      simp [hm, h1, h2, eq_comm]

/-- `ENC`'s new matrix. -/
theorem encodedBlk_eq_ok {m' : ByteMatrix} :
    (match s.readBlk with | .ok b => .ok (encodeBlock b) | .error e => .error e : Except Fault ByteMatrix)
      = .ok m' ↔ ∃ b, s.blk = some b ∧ m' = encodeBlock b := by
  unfold State.readBlk
  cases s.blk <;> simp [eq_comm]

/-- The matrix a micro-operation puts in `ST`, by its opcode (the case table of R131). -/
def newMatrix (u : Uop) (s : State) : Except Fault ByteMatrix :=
  match u.op with
  | .enc => match s.readBlk with | .ok b => .ok (encodeBlock b) | .error e => .error e
  | .arki => s.xorRoundKey 0
  | .sub => s.transformSt (byteSubstitution Config.standard)
  | .rot => s.transformSt rowRotation
  | .mix => s.transformSt columnMix
  | .ark => s.xorRoundKey u.rnd
  | .fin => s.readSt

/-- Every legal micro-operation is one `microOp` on its new matrix. -/
theorem exec_uopInstr {u : Uop} (h : uopLegal u.op u.rnd = true) :
    exec (uopInstr u) s = microOp u.op u.rnd (newMatrix u s) s := by
  obtain ⟨op, rnd⟩ := u
  have zero : rnd.toNat = 0 → rnd = 0 := fun e => BitVec.eq_of_toNat_eq e
  cases op with
  | enc => obtain rfl := zero (by simpa [uopLegal] using h); rfl
  | arki => obtain rfl := zero (by simpa [uopLegal] using h); rfl
  | fin => obtain rfl := zero (by simpa [uopLegal] using h); rfl
  | sub => rfl
  | rot => rfl
  | mix => rfl
  | ark => rfl

/-- A well-formed micro-operation whose operands hold values has a new matrix. -/
theorem newMatrix_of_operandsHold {i : Instr} (hi : IsMicroOp i) (hw : i.wf = true) (ho : OperandsHold i s) :
    ∃ u m, i = uopInstr u ∧ uopLegal u.op u.rnd = true ∧ newMatrix u s = .ok m := by
  have transform : ∀ f, s.st.isSome → ∃ m, s.transformSt f = .ok m := by
    intro f h
    obtain ⟨m, hm⟩ := Option.isSome_iff_exists.1 h
    exact ⟨f m, transformSt_eq_ok.2 ⟨m, hm, rfl⟩⟩
  have keyed : ∀ r : BitVec 4, r.toNat ≤ s.nr.toNat → s.st.isSome → (s.rk.read r.toNat).isSome →
      ∃ m, s.xorRoundKey r = .ok m := by
    intro r hr h hk
    obtain ⟨m, hm⟩ := Option.isSome_iff_exists.1 h
    obtain ⟨k, hk⟩ := Option.isSome_iff_exists.1 hk
    exact ⟨_, xorRoundKey_eq_ok.2 ⟨m, k, hm, hr, hk, rfl⟩⟩
  cases i with
  | start _ _ _ => exact hi.elim
  | read _ => exact hi.elim
  | reserved _ => exact hi.elim
  | enc =>
    obtain ⟨b, hb⟩ := Option.isSome_iff_exists.1 ho
    exact ⟨⟨.enc, 0⟩, _, rfl, rfl, encodedBlk_eq_ok.2 ⟨b, hb, rfl⟩⟩
  | arki => exact (keyed 0 (Nat.zero_le _) ho.1 ho.2).elim fun m hm => ⟨⟨.arki, 0⟩, m, rfl, rfl, hm⟩
  | sub r =>
    have l : uopLegal .sub r = true := by simpa [Instr.wf, uopLegal] using hw
    exact (transform _ ho).elim fun m hm => ⟨⟨.sub, r⟩, m, rfl, l, hm⟩
  | rot r =>
    have l : uopLegal .rot r = true := by simpa [Instr.wf, uopLegal] using hw
    exact (transform _ ho).elim fun m hm => ⟨⟨.rot, r⟩, m, rfl, l, hm⟩
  | mix r =>
    have l : uopLegal .mix r = true := by simpa [Instr.wf, uopLegal] using hw
    exact (transform _ ho).elim fun m hm => ⟨⟨.mix, r⟩, m, rfl, l, hm⟩
  | ark r =>
    have l : uopLegal .ark r = true := by simpa [Instr.wf, uopLegal] using hw
    exact (keyed r ho.2.1 ho.1 ho.2.2).elim fun m hm => ⟨⟨.ark, r⟩, m, rfl, l, hm⟩
  | fin =>
    obtain ⟨m, hm⟩ := Option.isSome_iff_exists.1 ho
    exact ⟨⟨.fin, 0⟩, m, rfl, rfl, readSt_eq_ok.2 hm⟩

/-- What any micro-operation can do when it answers a next state. -/
theorem exec_microOp_next {i : Instr} (hi : IsMicroOp i) (h : exec i s = .next t) :
    ∃ u m, i = uopInstr u ∧ uopLegal u.op u.rnd = true ∧ s.ph = .busy ∧
      s.seq.toNat < Config.trDepth ∧ newMatrix u s = .ok m ∧ t = afterMicroOp u.op u.rnd m s := by
  have use : ∀ u, uopLegal u.op u.rnd = true → i = uopInstr u → ∃ u m, i = uopInstr u ∧
      uopLegal u.op u.rnd = true ∧ s.ph = .busy ∧ s.seq.toNat < Config.trDepth ∧
      newMatrix u s = .ok m ∧ t = afterMicroOp u.op u.rnd m s := by
    rintro u hl rfl
    rw [exec_uopInstr hl] at h
    obtain ⟨-, hb, hs, m, hm, ht⟩ := microOp_next_iff.1 h
    exact ⟨u, m, rfl, hl, hb, hs, hm, ht⟩
  cases i with
  | start _ _ _ => exact hi.elim
  | read _ => exact hi.elim
  | reserved _ => exact hi.elim
  | enc => exact use { op := .enc, rnd := 0 } rfl rfl
  | arki => exact use { op := .arki, rnd := 0 } rfl rfl
  | fin => exact use { op := .fin, rnd := 0 } rfl rfl
  | sub r => exact use { op := .sub, rnd := r } (microOp_next_iff.1 h).1 rfl
  | rot r => exact use { op := .rot, rnd := r } (microOp_next_iff.1 h).1 rfl
  | mix r => exact use { op := .mix, rnd := r } (microOp_next_iff.1 h).1 rfl
  | ark r => exact use { op := .ark, rnd := r } (microOp_next_iff.1 h).1 rfl

/-- While `SEQ` is below the trace's depth it does not wrap (R17). -/
theorem toNat_seq_succ (h : s.seq.toNat < Config.trDepth) : (s.seq + 1).toNat = s.seq.toNat + 1 := by
  simp only [Config.trDepth] at h
  rw [BitVec.toNat_add]
  simp
  omega

/-- Which rounds a selector gives: the three legal ones and no other. -/
theorem roundsFor_eq_some {ks : BitVec 16} {nr : BitVec 4} :
    roundsFor ks = some nr ↔ (ks.toNat = 128 ∧ nr = 10) ∨ (ks.toNat = 192 ∧ nr = 12) ∨
      (ks.toNat = 256 ∧ nr = 14) := by
  unfold roundsFor
  split
  · simp [*, eq_comm]
  · split
    · simp [*, eq_comm]
    · split <;> simp [*, eq_comm]

theorem roundsFor_eq_none {ks : BitVec 16} :
    roundsFor ks = none ↔ ks.toNat ≠ 128 ∧ ks.toNat ≠ 192 ∧ ks.toNat ≠ 256 := by
  unfold roundsFor
  split
  · simp [*]
  · split
    · simp [*]
    · split <;> simp [*]

/-- `START` always answers a next state, in one of three ways. -/
theorem execStart_cases (ks : BitVec 16) (key block : Block) (s : State) :
    (s.ph = .busy ∧ execStart ks key block s = .next s) ∨
    (s.ph ≠ .busy ∧ ∃ nr, roundsFor ks = some nr ∧
      execStart ks key block s = .next (launch nr key block s)) ∨
    (s.ph ≠ .busy ∧ roundsFor ks = none ∧
      execStart ks key block s = .next (raiseInvalidKeySize ks s)) := by
  unfold execStart
  by_cases h : s.ph = .busy
  · simp [h]
  · cases hr : roundsFor ks <;> simp [h]

/-- A `READ` changes at most the reply. -/
theorem execRead_next {n : BitVec 6} (h : execRead n s = .next t) :
    (s.ph = .done ∧ n.toNat < s.seq.toNat ∧ ∃ rec, s.tr.read n.toNat = some rec ∧
      t = { s with reply := some rec }) ∨
    (¬ (s.ph = .done ∧ n.toNat < s.seq.toNat) ∧ t = { s with reply := none }) := by
  unfold execRead at h
  split at h
  · rename_i hc
    split at h
    · rename_i rec hr; left; exact ⟨hc.1, hc.2, rec, hr, by simpa [eq_comm] using h⟩
    · simp at h
  · rename_i hc; right; exact ⟨hc, by simpa [eq_comm] using h⟩

/-- What one step can do when it answers a next state: reset, rest, or the execution of the decoded word
that was fetched. -/
theorem step_cases (h : step s = .next t) :
    (s.host.head? = some .reset ∧ t = s.afterReset) ∨
    (s.host.head? ≠ some .reset ∧ s.fetch = .ok none ∧ t = s.takeMove) ∨
    (s.host.head? ≠ some .reset ∧ ∃ w i, s.fetch = .ok (some w) ∧ decode w = .ok i ∧
      exec i s.takeMove = .next t) := by
  unfold step at h
  split at h
  · rename_i hr; left; exact ⟨hr, by simpa [eq_comm] using h⟩
  · rename_i hr
    right
    cases hf : s.fetch with
    | error e => simp [hf] at h
    | ok o =>
      cases o with
      | none => left; exact ⟨hr, rfl, by simpa [hf, eq_comm] using h⟩
      | some w =>
        right
        cases hd : decode w with
        | error e => simp [hf, hd] at h
        | ok i => exact ⟨hr, w, i, rfl, hd, by simpa [hf, hd] using h⟩

/-- A step without reset in BUSY, inside the control store's domain: its micro-operation (R131). -/
theorem step_busy {u : Uop} (hb : s.ph = .busy) (hr : s.host.head? ≠ some .reset)
    (hu : controlStore s.nr.toNat s.seq.toNat = some u) :
    step s = microOp u.op u.rnd (newMatrix u s.takeMove) s.takeMove := by
  obtain ⟨hf, hd⟩ := fetch_busy hb hu
  rw [← exec_uopInstr (controlStore_legal hu).1]
  unfold step
  split
  · rename_i h; exact absurd h hr
  · simp [hf, hd]

end Sys2Proof.Machine
end

