-- ==== Sys2Proof/Laws/PerInstr.lean ====
section
/-! SUPPORT. The family TableWord: the encoder against the rows of spec/opcode_table.json, one lemma per
constructor of Instr. -/

namespace Sys2Proof.Laws.TableWord

/-- A row of spec/opcode_table.json: its width, mask and match as the table prints them. -/
structure Row where
  width   : Nat
  mask    : Nat
  pattern : Nat

/-- The row of an instruction. -/
def row : Instr → Row
  | .start _ _ _ => { width := 272, mask := 0x0, pattern := 0x0 }
  | .enc => { width := 7, mask := 0x7f, pattern := 0x00 }
  | .arki => { width := 7, mask := 0x7f, pattern := 0x10 }
  | .sub _ => { width := 7, mask := 0x70, pattern := 0x20 }
  | .rot _ => { width := 7, mask := 0x70, pattern := 0x30 }
  | .mix _ => { width := 7, mask := 0x70, pattern := 0x40 }
  | .ark _ => { width := 7, mask := 0x70, pattern := 0x50 }
  | .fin => { width := 7, mask := 0x7f, pattern := 0x60 }
  | .read _ => { width := 6, mask := 0x00, pattern := 0x00 }
  | .reserved _ => { width := 7, mask := 0x70, pattern := 0x70 }

/-- A code word's width and its bits as a number. -/
def bits : CodeWord → Nat × Nat
  | .cmd w => (272, w.toNat)
  | .uop w => (7, w.toNat)
  | .rd w => (6, w.toNat)

/-- The encoded word has the width of the instruction's table row and shows the row's pattern under the
row's mask. -/
def Statement (i : Instr) : Prop :=
  (bits (encode i)).1 = (row i).width ∧ (bits (encode i)).2 &&& (row i).mask = (row i).pattern

theorem start (ks : BitVec 16) (key block : Block) : Statement (.start ks key block) := by
  simp [Statement, encode, bits, row]

theorem enc : Statement .enc := by simp [Statement, encode, bits, row]

theorem arki : Statement .arki := by simp [Statement, encode, bits, row]

theorem sub (r : BitVec 4) : Statement (.sub r) := ⟨rfl, by revert r; decide⟩

theorem rot (r : BitVec 4) : Statement (.rot r) := ⟨rfl, by revert r; decide⟩

theorem mix (r : BitVec 4) : Statement (.mix r) := ⟨rfl, by revert r; decide⟩

theorem ark (r : BitVec 4) : Statement (.ark r) := ⟨rfl, by revert r; decide⟩

theorem fin : Statement .fin := by simp [Statement, encode, bits, row]

theorem read (n : BitVec 6) : Statement (.read n) := by simp [Statement, encode, bits, row]

theorem reserved (x : BitVec 4) : Statement (.reserved x) := ⟨rfl, by revert x; decide⟩

end Sys2Proof.Laws.TableWord
end

