-- ==== Sys2Proof/Laws/Record.lean ====
section
/-! SUPPORT. The fields of the CMD and REC words, read back one by one (R61, R66). -/

namespace Sys2Proof.Machine

section CommandFields

variable (ks : BitVec 16) (key block : BitVec 128)

theorem commandWord_keySize : (ks ++ key ++ block : BitVec 272).extractLsb' 256 16 = ks := by
  rw [BitVec.extractLsb'_append_eq_of_le (by decide), BitVec.extractLsb'_append_eq_of_le (by decide)]
  exact BitVec.extractLsb'_eq_self

theorem commandWord_key : (ks ++ key ++ block : BitVec 272).extractLsb' 128 128 = key := by
  rw [BitVec.extractLsb'_append_eq_of_le (by decide), BitVec.extractLsb'_append_eq_of_add_le (by decide)]
  exact BitVec.extractLsb'_eq_self

theorem commandWord_block : (ks ++ key ++ block : BitVec 272).extractLsb' 0 128 = block := by
  rw [BitVec.extractLsb'_append_eq_of_add_le (by decide)]
  exact BitVec.extractLsb'_eq_self

end CommandFields

section RecordFields

variable (r : StepRecord)

theorem recordWord_seq : (recordWord r).extractLsb' 268 6 = r.seq := by
  unfold recordWord
  iterate 7 rw [BitVec.extractLsb'_append_eq_of_le (by decide)]
  exact BitVec.extractLsb'_eq_self

theorem recordWord_op : (recordWord r).extractLsb' 265 3 = opCode r.op := by
  unfold recordWord
  iterate 6 rw [BitVec.extractLsb'_append_eq_of_le (by decide)]
  rw [BitVec.extractLsb'_append_eq_of_add_le (by decide)]
  exact BitVec.extractLsb'_eq_self

theorem recordWord_rnd : (recordWord r).extractLsb' 261 4 = r.round.getD 0 := by
  unfold recordWord
  iterate 5 rw [BitVec.extractLsb'_append_eq_of_le (by decide)]
  rw [BitVec.extractLsb'_append_eq_of_add_le (by decide)]
  exact BitVec.extractLsb'_eq_self

theorem recordWord_rv : (recordWord r).getLsbD 260 = r.round.isSome := by
  unfold recordWord
  simp only [BitVec.getLsbD_append]
  cases r.round.isSome <;> rfl

theorem recordWord_col : (recordWord r).extractLsb' 257 3 = colourCode r.col := by
  unfold recordWord
  iterate 3 rw [BitVec.extractLsb'_append_eq_of_le (by decide)]
  rw [BitVec.extractLsb'_append_eq_of_add_le (by decide)]
  exact BitVec.extractLsb'_eq_self

theorem recordWord_cv : (recordWord r).getLsbD 256 = r.ct.isSome := by
  unfold recordWord
  simp only [BitVec.getLsbD_append]
  cases r.ct.isSome <;> rfl

theorem recordWord_ct : (recordWord r).extractLsb' 128 128 = ciphertextBits r.ct := by
  unfold recordWord
  rw [BitVec.extractLsb'_append_eq_of_le (by decide), BitVec.extractLsb'_append_eq_of_add_le (by decide)]
  exact BitVec.extractLsb'_eq_self

theorem recordWord_mat : (recordWord r).extractLsb' 0 128 = packMatrix r.mat := by
  unfold recordWord
  rw [BitVec.extractLsb'_append_eq_of_add_le (by decide)]
  exact BitVec.extractLsb'_eq_self

end RecordFields

end Sys2Proof.Machine
end

