-- ==== Sys2Proof/Laws/Table.lean ====
section
/-! SUPPORT. The named property of the substitution table (R91 (a), R92): what it gives for any
configuration, and that the standard one has it. -/

namespace Sys2Proof

/-- A table with the named property is a bijection on bytes. -/
theorem Config.SboxBijective.bijective {c : Config} (h : c.SboxBijective) :
    Function.Bijective (Machine.sboxRead c) := by
  rw [← Finite.injective_iff_bijective]
  intro x y e
  have inj := fun (hx : x.toNat < c.sbox.toList.length) (hy : y.toNat < c.sbox.toList.length) =>
    (List.Nodup.getElem_inj_iff (hi := hx) (hj := hy) h).1
  exact BitVec.eq_of_toNat_eq (inj (by simpa using x.isLt) (by simpa using y.isLt)
    (by simpa [Machine.sboxRead] using e))

/-- The table of R90 has the named property. -/
theorem Config.standard_sboxBijective : Config.standard.SboxBijective := by
  show Config.sboxTable.Nodup
  unfold Config.sboxTable
  decide +kernel

end Sys2Proof
end

