-- ==== Sys2Proof/Tests/Slice0.lean ====
section
/-! SUPPORT. The model's own tests: well-formedness, decoding of words written out from 30_encoding.md, one or two
single steps per instruction on the values of 95_test_vectors.md, and a witness of every statement's
hypotheses. -/

namespace Sys2Proof.Tests

open Sys2Proof.Machine

/-! Well-formedness: an ill-formed term for each check of R64 and R65. -/

theorem test_wf_sub_zero : (Instr.sub 0).wf = false := by decide
theorem test_wf_sub_fifteen : (Instr.sub 15).wf = false := by decide
theorem test_wf_rot_zero : (Instr.rot 0).wf = false := by decide
theorem test_wf_rot_fifteen : (Instr.rot 15).wf = false := by decide
theorem test_wf_mix_zero : (Instr.mix 0).wf = false := by decide
theorem test_wf_mix_fourteen : (Instr.mix 14).wf = false := by decide
theorem test_wf_ark_zero : (Instr.ark 0).wf = false := by decide
theorem test_wf_ark_fifteen : (Instr.ark 15).wf = false := by decide
theorem test_wf_reserved : ∀ x, (Instr.reserved x).wf = false := by decide
theorem test_wf_accepts : (Instr.sub 14).wf = true ∧ (Instr.mix 13).wf = true ∧ (Instr.ark 1).wf = true := by
  decide

/-! Decoding: words written out from R61 to R63, R70, R71 and sections 2.5 and 3 of the vectors. -/

/-- V-C5: the block `00 01 .. 0f`. -/
def countingBlock : Block := #v[0, 1, 2, 3, 4, 5, 6, 7, 8, 9, 10, 11, 12, 13, 14, 15]

/-- `00 11 22 .. ff`, the block of P2. -/
def doublesBlock : Block :=
  #v[0x00, 0x11, 0x22, 0x33, 0x44, 0x55, 0x66, 0x77, 0x88, 0x99, 0xaa, 0xbb, 0xcc, 0xdd, 0xee, 0xff]

/-- P2's `CMD` word. -/
def wordP2 : BitVec 272 := 0x00c00f0e0d0c0b0a09080706050403020100ffeeddccbbaa99887766554433221100

theorem test_decode_start : decode (.cmd wordP2) = .ok (.start 192 countingBlock doublesBlock) := by decide
theorem test_encode_start : encode (.start 192 countingBlock doublesBlock) = .cmd wordP2 := by decide
theorem test_decode_enc : decode (.uop 0b0000000) = .ok .enc := by decide
theorem test_decode_arki : decode (.uop 0b0010000) = .ok .arki := by decide
theorem test_decode_sub : decode (.uop 0b0100011) = .ok (.sub 3) := by decide
theorem test_decode_rot : decode (.uop 0b0111110) = .ok (.rot 14) := by decide
theorem test_decode_mix : decode (.uop 0b1001101) = .ok (.mix 13) := by decide
theorem test_decode_ark : decode (.uop 0b1011010) = .ok (.ark 10) := by decide
theorem test_decode_fin : decode (.uop 0b1100000) = .ok .fin := by decide
theorem test_decode_read : decode (.rd 0b101001) = .ok (.read 41) := by decide
theorem test_decode_reserved : ∀ x : BitVec 4, decode (.uop (0b111#3 ++ x)) = .error .illegalMicroOperation := by
  decide
/-- V-U2: the refused words that are not opcode 7. -/
theorem test_decode_refused : ∀ w ∈ ([0x01, 0x0f, 0x11, 0x1f, 0x61, 0x6f, 0x20, 0x2f, 0x30, 0x3f, 0x50, 0x5f,
    0x40, 0x4e, 0x4f] : List (BitVec 7)), decode (.uop w) = .error .illegalMicroOperation := by decide
/-- V-U2: 58 of the 128 words are legal. -/
theorem test_decode_legal_count : ((List.range 128).countP fun n => (decodeTableWord 8 n).isSome) = 58 := by
  decide +kernel
theorem test_table_read : decodeTableWord 6 41 = some (.read 41) := by decide

/-! States for the single steps. -/

/-- A matrix from its rows. -/
def rows (a b c d : Vector Byte 4) : ByteMatrix := #v[a, b, c, d]

/-- `00 01 02 03 / 04 05 06 07 / 08 09 0a 0b / 0c 0d 0e 0f`, the zero key's round key 0 (V-K1). -/
def rowOrder : ByteMatrix := rows #v[0, 1, 2, 3] #v[4, 5, 6, 7] #v[8, 9, 10, 11] #v[12, 13, 14, 15]

/-- Record 1 of P1. -/
def stateP1 : ByteMatrix := rows #v[0x41, 1, 2, 3] #v[4, 5, 6, 7] #v[8, 9, 10, 11] #v[12, 13, 14, 15]

/-- The block of P1: the letter A. -/
def blockA : Block := #v[0x41, 0, 0, 0, 0, 0, 0, 0, 0, 0, 0, 0, 0, 0, 0, 0]

/-- The zero key. -/
def zeroKey : Block := Vector.replicate 16 0

/-- The state after `START 128` with the zero key and P1's block, from reset. -/
def started : State := launch 10 zeroKey blockA State.reset

/-- The same with a given `ST` and `SEQ`. -/
def running (m : ByteMatrix) (n : BitVec 6) : State := { started with st := some m, seq := n }

/-- A finished run in small: one record, `SEQ = 1`, `PH = DONE`. -/
def finished : State :=
  { started with ph := .done, seq := 1, tr := { cells := [(0, makeRecord 0 .enc 0 stateP1)] } }

/-- A state mid-run in P3's error: `PH = ERR` after `START 64`. -/
def failed : State := raiseInvalidKeySize 64 State.reset

/-- The state a step answers, the given one if it answers none. -/
def answer (o : Host.Outcome State Fault Refusal) : State :=
  match o with
  | .next t => t
  | .fault _ => State.reset
  | .refused _ => State.reset

/-! One or two steps per instruction. -/

/-- P1: the launch writes `NR`, `SEQ`, `PH` and `RK[1]`. -/
theorem test_start_launch :
    (answer (exec (.start 128 zeroKey blockA) State.reset)).rk.read 1 =
      some (rows #v[0x10, 0x11, 0x12, 0x13] #v[0x14, 0x15, 0x16, 0x17] #v[0x18, 0x19, 0x1a, 0x1b]
        #v[0x1c, 0x1d, 0x1e, 0x1f]) ∧
      (answer (exec (.start 128 zeroKey blockA) State.reset)).rk.read 11 = none := by decide
/-- P4 (L1-3): `START 64` raises InvalidKeySize. -/
theorem test_start_illegal :
    exec (.start 64 zeroKey blockA) State.reset =
      .next { State.reset with ph := .err, ecause := 1, eval := 64, seq := 0 } := by rfl
/-- V-K2: the wrapping addition of the key schedule. -/
theorem test_round_key_wraps :
    roundKey (Vector.replicate 4 (Vector.replicate 4 0xff)) 14 =
      rows #v[0xdf, 0xe0, 0xe1, 0xe2] #v[0xe3, 0xe4, 0xe5, 0xe6] #v[0xe7, 0xe8, 0xe9, 0xea]
        #v[0xeb, 0xec, 0xed, 0xee] := by decide
/-- V-C1: the block fills the matrix column by column. -/
theorem test_enc :
    (answer (exec .enc { started with blk := some countingBlock })).st =
      some (rows #v[0, 4, 8, 12] #v[1, 5, 9, 13] #v[2, 6, 10, 14] #v[3, 7, 11, 15]) := by decide
/-- L1-1: record 1 of the source's scenario. -/
theorem test_arki :
    (answer (exec .arki (running (encodeBlock blockA) 1))).tr.read 1 =
      some { seq := 1, op := .arki, round := none, col := .red, mat := stateP1, ct := none } := by decide
/-- V-T1. -/
theorem test_sub :
    (answer (exec (.sub 1) (running stateP1 2))).tr.read 2 =
      some { seq := 2, op := .sub, round := some 1, col := .blue, ct := none
             mat := rows #v[0x83, 0x7c, 0x77, 0x7b] #v[0xf2, 0x6b, 0x6f, 0xc5] #v[0x30, 0x01, 0x67, 0x2b]
               #v[0xfe, 0xd7, 0xab, 0x76] } := by decide +kernel
/-- R92: another table, the identity, gives another `SUB`. -/
theorem test_sub_other_table :
    (answer (execSubWith { sbox := Vector.ofFn fun i => BitVec.ofNat 8 i.val } 1 (running stateP1 2))).st =
      some stateP1 := by decide +kernel
/-- R91 (d): a known product in GF(2^8) (hand calculation), and the closed form at 0 and at 1. -/
theorem test_closed_form :
    gfMul 0x57 0x83 = 0xc1 ∧ sboxAffine (gfInv 0) = 0x63 ∧ sboxAffine (gfInv 1) = 0x7c := by decide
/-- V-R1. -/
theorem test_rot :
    (answer (exec (.rot 14) (running rowOrder 3))).st =
      some (rows #v[0, 1, 2, 3] #v[5, 6, 7, 4] #v[10, 11, 8, 9] #v[15, 12, 13, 14]) := by decide
/-- V-R3: the direction; a single cell at row 3, column 0 moves to column 1. -/
theorem test_rot_direction :
    rowRotation (rows #v[0, 0, 0, 0] #v[0, 0, 0, 0] #v[0, 0, 0, 0] #v[0xaa, 0, 0, 0]) =
      rows #v[0, 0, 0, 0] #v[0, 0, 0, 0] #v[0, 0, 0, 0] #v[0, 0xaa, 0, 0] := by decide
/-- V-M2. -/
theorem test_mix :
    (answer (exec (.mix 1) (running (rows #v[0xde, 0xad, 0xbe, 0xef] #v[1, 2, 3, 4] #v[0xff, 0, 0xff, 0]
      #v[0x80, 0x7f, 0x10, 0x01]) 4))).st =
      some (rows #v[0xa0, 0xd0, 0x52, 0xea] #v[0xa0, 0xd0, 0x52, 0xea] #v[0xa0, 0xd0, 0x52, 0xea]
        #v[0xa0, 0xd0, 0x52, 0xea]) := by decide
/-- V-A2: `ARK 1` on a zero `ST` with the zero key. -/
theorem test_ark :
    (answer (exec (.ark 1) (running (Vector.replicate 4 (Vector.replicate 4 0)) 5))).st =
      some (rows #v[0x10, 0x11, 0x12, 0x13] #v[0x14, 0x15, 0x16, 0x17] #v[0x18, 0x19, 0x1a, 0x1b]
        #v[0x1c, 0x1d, 0x1e, 0x1f]) := by decide
/-- R14, U7: a round key above `NR` is not read. -/
theorem test_ark_above_nr :
    exec (.ark 11) (running stateP1 5) = .fault (.roundKeyNotInUse 11) := by rfl
/-- R84: the ciphertext is the decoded matrix, `ST` stays, the run is done. -/
theorem test_fin :
    (answer (exec .fin (running (encodeBlock countingBlock) 41))).tr.read 41 =
      some { seq := 41, op := .fin, round := none, col := .cyan, mat := encodeBlock countingBlock,
             ct := some countingBlock } ∧
      (answer (exec .fin (running (encodeBlock countingBlock) 41))).ph = .done := by decide
/-- V-E4: a readable record, and one past `SEQ`. -/
theorem test_read :
    (answer (exec (.read 0) finished)).reply = some (makeRecord 0 .enc 0 stateP1) ∧
      (answer (exec (.read 1) finished)).reply = none := by decide
/-- V-E4: while BUSY even a written record is refused. -/
theorem test_read_busy : (answer (exec (.read 0) { finished with ph := .busy, seq := 7 })).reply = none := by decide
/-- V-W1: the REC word of record 2 of P1. -/
theorem test_record_word :
    recordWord (makeRecord 2 .sub 1 (rows #v[0x83, 0x7c, 0x77, 0x7b] #v[0xf2, 0x6b, 0x6f, 0xc5]
      #v[0x30, 0x01, 0x67, 0x2b] #v[0xfe, 0xd7, 0xab, 0x76])) =
      0x0243400000000000000000000000000000000762bc57bab676f77d7016b7cfe30f283 := by decide
/-- The REC word of record 41 of P1 decodes to the record with its ciphertext. -/
theorem test_decode_record :
    (match decodeRecord 0x29c0b17941436530a7532b7afea799ea3012417941436530a7532b7afea799ea30124 with
      | .ok r => r.ct
      | .error _ => none) =
      some #v[0x24, 0x01, 0xa3, 0x9e, 0x79, 0xea, 0xaf, 0xb7, 0x32, 0x75, 0x0a, 0x53, 0x36, 0x14, 0x94, 0x17] := by
  decide
/-- R67: a REC word with colour 6 is refused by name. -/
theorem test_decode_record_colour :
    decodeRecord ((0 : BitVec 14) ++ (6 : BitVec 3) ++ (0 : BitVec 257)) = .error .reservedColour := by decide
/-- V-W3 and V-W4: names and grid text. -/
theorem test_render (p : Config.DisplayParams) :
    operationName p .sub 3 = "SubBytes (Round 3)" ∧ hexByte 0x0a = "0x0a" ∧
      instrText (.ark 10) = "ARK 10" := ⟨rfl, by decide, rfl⟩
/-- R128 (a): a short plaintext is padded on the right. -/
theorem test_normalize : normalize [0x41] = blockA := by decide

/-! Steps: fetching, resting, reset, and the host's word check. -/

theorem test_step_follows_store : step (running stateP1 2) = exec (.sub 1) (running stateP1 2) := by rfl
theorem test_step_rests : step State.reset = .next State.reset := by rfl
/-- V-X2: reset in mid-run. -/
theorem test_step_reset :
    step { running stateP1 17 with host := [.reset, .quiet] } = .next { State.reset with host := [.quiet] } := by rfl
/-- V-E3: a command offered while BUSY is gone and has no effect. -/
theorem test_step_busy_command :
    step { running stateP1 2 with host := [.command wordP2] } = step { running stateP1 2 with host := [.quiet] } := by rfl
theorem test_fetch_word_sub :
    ((State.reset.withFetchWord 8 0x25).fetch : Except Fault (Option CodeWord)) = .ok (some (.uop 0x25)) := by decide
theorem test_fetch_word_runs :
    (answer (step (State.reset.withFetchWord 8 0x60))).ph = .done ∧
      (answer (step (State.reset.withFetchWord 272 wordP2.toNat))).nr = 12 := by decide

/-! Witnesses: for every statement of Certificates/Slice0/Obligations.lean that has hypotheses, concrete values
that meet all of them; one per clause where a statement has several. -/

theorem witness_DecodeEncodeRoundTrip :
    (Instr.start 65535 countingBlock doublesBlock).wf = true ∧ (Instr.sub 1).wf = true ∧
      (Instr.sub 14).wf = true ∧ (Instr.mix 13).wf = true ∧ (Instr.ark 14).wf = true ∧
      (Instr.read 63).wf = true := by decide
theorem witness_DecodedWordsAreEncodings : decode (.uop 0x4d) = .ok (.mix 13) := by decide
theorem witness_IllegalMicroOperationsRefused : controlStore 14 57 = some { op := .fin, rnd := 0 } := by decide
theorem witness_RecordWordRoundTrip :
    recordConsistent (makeRecord 57 .fin 0 stateP1) = true ∧
      recordConsistent (makeRecord 2 .sub 14 stateP1) = true := by decide
theorem witness_RecordPresenceBits :
    decodeRecord (recordWord (makeRecord 0 .enc 0 (encodeBlock blockA))) =
      .ok (makeRecord 0 .enc 0 (encodeBlock blockA)) := by decide
theorem witness_RoundKeyIdentity : (0 : Nat) ≤ 14 ∧ (14 : Nat) ≤ 14 := by decide
theorem witness_RoundKeyFromKeyBytes : (14 : Nat) ≤ 14 := by decide
theorem witness_GenerateListsTheRoundKeys : (14 : Nat) ≤ 14 := by decide
theorem witness_SubstitutionIsInjectiveWithoutFixedPoint :
    sboxRead Config.standard 0xff = sboxRead Config.standard 0xff := by decide
theorem witness_ByteSubstitutionIsBijective :
    Config.standard.SboxBijective ∧
      ∀ a b : Fin 4, (Vector.replicate 4 (Vector.replicate 4 0) : ByteMatrix)[a][b] = 0 :=
  ⟨Config.standard_sboxBijective, by decide⟩
theorem witness_EncLoadsTheBlock :
    started.ph = .busy ∧ started.seq.toNat < 58 ∧ started.blk = some blockA ∧
      { started with seq := 57 }.seq.toNat < 58 := by decide
theorem witness_ArkiAddsRoundKeyZero :
    (running stateP1 1).ph = .busy ∧ (running stateP1 1).seq.toNat < 58 ∧ (running stateP1 1).st = some stateP1 ∧
      (running stateP1 1).rk.read 0 = some rowOrder := by decide
theorem witness_SubSubstitutesEveryByte :
    1 ≤ (1 : BitVec 4).toNat ∧ (14 : BitVec 4).toNat ≤ 14 ∧ (running stateP1 57).ph = .busy ∧
      (running stateP1 57).seq.toNat < 58 ∧ (running stateP1 57).st = some stateP1 := by decide
theorem witness_RotRotatesEveryRow :
    1 ≤ (14 : BitVec 4).toNat ∧ (14 : BitVec 4).toNat ≤ 14 ∧ (running stateP1 3).ph = .busy ∧
      (running stateP1 3).seq.toNat < 58 ∧ (running stateP1 3).st = some stateP1 := by decide
theorem witness_MixCollapsesEveryColumn :
    1 ≤ (13 : BitVec 4).toNat ∧ (13 : BitVec 4).toNat ≤ 13 ∧ (running stateP1 4).ph = .busy ∧
      (running stateP1 4).seq.toNat < 58 ∧ (running stateP1 4).st = some stateP1 := by decide
theorem witness_ArkAddsItsRoundKey :
    1 ≤ (10 : BitVec 4).toNat ∧ (10 : BitVec 4).toNat ≤ 14 ∧
      (10 : BitVec 4).toNat ≤ (running stateP1 40).nr.toNat ∧ (running stateP1 40).ph = .busy ∧
      (running stateP1 40).seq.toNat < 58 ∧ (running stateP1 40).st = some stateP1 ∧
      (running stateP1 40).rk.read (10 : BitVec 4).toNat =
        some (rows #v[0xa0, 0xa1, 0xa2, 0xa3] #v[0xa4, 0xa5, 0xa6, 0xa7] #v[0xa8, 0xa9, 0xaa, 0xab]
          #v[0xac, 0xad, 0xae, 0xaf]) := by decide
theorem witness_FinEmitsTheCiphertext :
    (running stateP1 57).ph = .busy ∧ (running stateP1 57).seq.toNat < 58 ∧
      (running stateP1 57).st = some stateP1 := by decide
theorem witness_MicroOperationsFrame :
    IsMicroOp (.rot 1) ∧ exec (.rot 1) (running stateP1 3) = .next (answer (exec (.rot 1) (running stateP1 3))) :=
  ⟨trivial, rfl⟩
/-- Not enabled; no `ST`; no `BLK`; no round key; a stale round key; each of the seven with the trace full; and at
the last entry it still has. -/
theorem witness_MicroOperationsStopByName :
    ((Instr.sub 1).wf = true ∧ State.reset.ph ≠ .busy) ∧
    ((Instr.rot 14).wf = true ∧ Instr.rot 14 ≠ .enc ∧ started.ph = .busy ∧ started.st = none) ∧
    ({ started with blk := none }.ph = .busy ∧ { started with blk := none }.blk = none) ∧
    ({ running stateP1 1 with rk := { cells := [] } }.st ≠ none ∧
      { running stateP1 1 with rk := { cells := [] } }.rk.read 0 = none) ∧
    ((Instr.ark 10).wf = true ∧ (10 : BitVec 4).toNat ≤ (running stateP1 5).nr.toNat ∧
      { running stateP1 5 with rk := { cells := [] } }.rk.read 10 = none) ∧
    ((Instr.ark 11).wf = true ∧ (running stateP1 5).nr.toNat < (11 : BitVec 4).toNat) ∧
    (∀ i ∈ [Instr.enc, .arki, .sub 1, .rot 14, .mix 13, .ark 10, .fin],
      i.wf = true ∧ OperandsHold i (running stateP1 58) ∧ OperandsHold i (running stateP1 57)) ∧
    (running stateP1 58).ph = .busy ∧ 58 ≤ (running stateP1 58).seq.toNat ∧
    (running stateP1 57).seq.toNat < 58 := by
  refine ⟨by decide, by decide, by decide, by decide, by decide, by decide, ?_, by decide, by decide, by decide⟩
  simp only [List.forall_mem_cons, List.not_mem_nil, false_implies, implies_true, and_true]
  decide
theorem witness_StartLaunchesAnInvocation :
    State.reset.ph ≠ .busy ∧ finished.ph ≠ .busy ∧ failed.ph ≠ .busy ∧
      ((128 : BitVec 16).toNat = 128 ∧ (10 : BitVec 4).toNat = 10) ∧
      ((192 : BitVec 16).toNat = 192 ∧ (12 : BitVec 4).toNat = 12) ∧
      ((256 : BitVec 16).toNat = 256 ∧ (14 : BitVec 4).toNat = 14) := by decide
theorem witness_IllegalSelectorEntersTheErrorState :
    finished.ph ≠ .busy ∧ (129 : BitVec 16).toNat ≠ 128 ∧ (129 : BitVec 16).toNat ≠ 192 ∧
      (129 : BitVec 16).toNat ≠ 256 ∧ (0 : BitVec 16).toNat ≠ 128 ∧ (65535 : BitVec 16).toNat ≠ 256 := by decide
theorem witness_StartWhileBusyHasNoEffect : started.ph = .busy := by decide
/-- A readable record; `n` exactly at `SEQ`; a phase that is not DONE. -/
theorem witness_ReadReturnsTheRecordOrNothing :
    (finished.ph = .done ∧ (0 : BitVec 6).toNat < finished.seq.toNat ∧
      finished.tr.read 0 = some (makeRecord 0 .enc 0 stateP1)) ∧
    finished.seq.toNat ≤ (1 : BitVec 6).toNat ∧ State.reset.ph ≠ .done := by decide
theorem witness_ReservedWordsHaveNoMeaning :
    (Instr.reserved 15).wf = false ∧ (Instr.mix 14).wf = false ∧ (Instr.sub 0).wf = false := by decide
theorem witness_StepRunsTheFetchedInstruction :
    ((running stateP1 2).host.head? ≠ some .reset ∧
      (running stateP1 2).fetch = .ok (some (.uop 0x21)) ∧ decode (.uop 0x21) = .ok (.sub 1)) ∧
    State.reset.fetch = .ok none := by decide
theorem witness_FetchFollowsTheControlStore :
    (started.ph = .busy ∧ started.host.head? ≠ some .reset ∧
      controlStore started.nr.toNat started.seq.toNat = some { op := .enc, rnd := 0 }) ∧
    State.reset.ph ≠ .busy ∧ State.reset.host = [] ∧
    { State.reset with host := [.command wordP2] }.host = .command wordP2 :: [] ∧
    { finished with host := [.request 0] }.host = .request 0 :: [] := by decide
theorem witness_RunningSequencerIgnoresThePorts :
    started.ph = .busy ∧ HostMove.command wordP2 ≠ .reset ∧ HostMove.request 0 ≠ .reset := by decide
/-- Reset asserted in mid-run; the `FIN` step, which leaves BUSY. -/
theorem witness_ResetAndTheEndsOfAnInvocation :
    { started with host := [.reset] }.host.head? = some .reset ∧
    ((running stateP1 41).ph = .busy ∧ step (running stateP1 41) = .next (answer (step (running stateP1 41))) ∧
      (answer (step (running stateP1 41))).ph ≠ .busy) := ⟨rfl, by decide, rfl, by decide⟩
theorem witness_PhaseTransitions :
    (started.ph = .busy ∧ started.host.head? ≠ some .reset ∧ step started = .next (answer (step started))) ∧
    (failed.ph ≠ .busy ∧ step failed = .next (answer (step failed))) :=
  ⟨⟨by decide, by decide, rfl⟩, by decide, rfl⟩
/-- In BUSY; at rest with a command; at rest without one. -/
theorem witness_SequenceCounterMoves :
    (started.ph = .busy ∧ step started = .next (answer (step started))) ∧
    (finished.ph ≠ .busy ∧ { finished with host := [.command wordP2] }.host.head? = some (.command wordP2) ∧
      step { finished with host := [.command wordP2] } =
        .next (answer (step { finished with host := [.command wordP2] }))) ∧
    (∀ w, finished.host.head? ≠ some (.command w)) ∧ step finished = .next (answer (step finished)) :=
  ⟨⟨by decide, rfl⟩, ⟨by decide, rfl, rfl⟩, (fun _ h => nomatch h), rfl⟩
theorem witness_RegistersHaveTheirWritersOnly :
    exec (.read 0) finished = .next (answer (exec (.read 0) finished)) ∧
      exec .fin (running stateP1 41) = .next (answer (exec .fin (running stateP1 41))) ∧
      exec (.start 128 zeroKey blockA) finished =
        .next (answer (exec (.start 128 zeroKey blockA) finished)) := ⟨rfl, rfl, rfl⟩

/-- The state after `START` and `ENC` of P1. -/
def encoded : State := answer (step started)

/-- `encoded` is well formed; it is a state a run reaches. -/
theorem encoded_inv : Inv encoded where
  idle := by decide
  busy := by decide
  done := by decide
  err := by decide
  roundKeys := fun _ => ⟨encodeBlock zeroKey, by decide, by decide⟩
  records := fun _ n hn => by
    have h : n = 0 := by
      have : encoded.seq.toNat = 1 := by decide
      omega
    subst h
    exact ⟨makeRecord 0 .enc 0 (encodeBlock blockA), by decide, by decide⟩
  storage := by decide

theorem encoded_traceInv : TraceInv encoded := fun _ n hn => by
  have h : n = 0 := by
    have : encoded.seq.toNat = 1 := by decide
    omega
  subst h
  exact ⟨makeRecord 0 .enc 0 (encodeBlock blockA), by decide, ⟨{ op := .enc, rnd := 0 }, by decide, by decide⟩,
    by decide⟩

theorem witness_StepKeepsTheInvariant : Inv encoded ∧ step encoded = .next (answer (step encoded)) :=
  ⟨encoded_inv, rfl⟩
theorem witness_WellFormedStatesNeverStop : Inv encoded := encoded_inv
theorem witness_StorageStaysCanonical : StorageInv encoded ∧ step encoded = .next (answer (step encoded)) :=
  ⟨encoded_inv.storage, rfl⟩
theorem witness_StepKeepsTheTraceInvariant : TraceInv encoded ∧ step encoded = .next (answer (step encoded)) :=
  ⟨encoded_traceInv, rfl⟩
/-- The finished trace of `encoded` is `BuildTrace`'s, as far as it goes. -/
theorem encoded_builtInv : BuiltInv encoded := fun _ => ⟨blockA, encodeBlock zeroKey, by decide, by decide, fun n hn => by
  have h : n = 0 := by
    have : encoded.seq.toNat = 1 := by decide
    omega
  subst h
  exact ⟨makeRecord 0 .enc 0 (encodeBlock blockA), by decide, by rfl, by decide⟩⟩

theorem witness_StepKeepsTheBuiltTrace :
    Inv encoded ∧ BuiltInv encoded ∧ step encoded = .next (answer (step encoded)) :=
  ⟨encoded_inv, encoded_builtInv, rfl⟩
/-- While BUSY, with a command on the port; and at rest. -/
theorem witness_SequencerStepIsTheTableOfR131 :
    (Inv encoded ∧ encoded.ph = .busy ∧ encoded.host.head? ≠ some .reset) ∧
      finished.ph ≠ .busy ∧ finished.host.head? ≠ some .reset ∧ step finished = .next (answer (step finished)) :=
  ⟨⟨encoded_inv, by decide, by decide⟩, by decide, by decide, rfl⟩
/-- Just past the last step of each sequence; a round count with no sequence. -/
theorem witness_ControlStoreIsTheProgram :
    4 * 10 + 1 < 42 ∧ 4 * 14 + 1 < 58 ∧ ¬ LegalRounds 0 ∧ ¬ LegalRounds 11 ∧ controlStore 11 2 = none := by decide
theorem witness_TableIsTheClosedForm : (0x53 : Byte) ≠ 0 ∧ gfMul 0x53 0xca = 1 := by decide
theorem witness_PackingAndWordPositions :
    decode (.cmd wordP2) = .ok (.start 192 countingBlock doublesBlock) := by decide
/-- The two kinds of command a run can begin with: P2's, and P4's illegal one. -/
theorem witness_RunBuildsTheTrace :
    ({ State.reset with host := [.command wordP2] }.ph ≠ .busy ∧
      decode (.cmd wordP2) = .ok (.start 192 countingBlock doublesBlock) ∧ roundsFor 192 = some 12 ∧
      NoReset (4 * (12 : BitVec 4).toNat + 2) []) ∧
    (decode (.cmd 0x00400000000000000000000000000000000000000000000000000000000000000041) =
      .ok (.start 64 zeroKey blockA) ∧ roundsFor 64 = none) := by decide
theorem witness_InvocationTakesExactlyItsSteps :
    { failed with host := [.command wordP2] }.ph ≠ .busy ∧
      decode (.cmd wordP2) = .ok (.start 192 countingBlock doublesBlock) ∧ roundsFor 192 = some 12 ∧
      NoReset (4 * (12 : BitVec 4).toNat + 2) [] := by decide
theorem witness_ResultDependsOnTheInputsOnly :
    { State.reset with host := [.command wordP2] }.ph ≠ .busy ∧
      { finished with host := [.command wordP2, .quiet] }.ph ≠ .busy ∧
      decode (.cmd wordP2) = .ok (.start 192 countingBlock doublesBlock) ∧ roundsFor 192 = some 12 ∧
      NoReset (4 * (12 : BitVec 4).toNat + 2) [.quiet] ∧ roundsFor 64 = none := by decide
theorem witness_DataNeverSteersControl :
    (running stateP1 2).ph = .busy ∧ (running rowOrder 2).ph = .busy ∧
      (running stateP1 2).nr = (running rowOrder 2).nr ∧ (running stateP1 2).seq = (running rowOrder 2).seq ∧
      step (running stateP1 2) = .next (answer (step (running stateP1 2))) ∧
      step (running rowOrder 2) = .next (answer (step (running rowOrder 2))) :=
  ⟨by decide, by decide, by decide, by decide, rfl, rfl⟩
theorem witness_BuiltTraceShape :
    LegalRounds 10 ∧ LegalRounds 12 ∧ LegalRounds 14 ∧
      (traceOfRounds Config.standard blockA zeroKey 10)[0]? = some (makeRecord 0 .enc 0 (encodeBlock blockA)) :=
  ⟨by decide, by decide, by decide, by rfl⟩
theorem witness_LastRecordCarriesTheCiphertext : LegalRounds 10 ∧ LegalRounds 12 ∧ LegalRounds 14 := by decide
/-- At rest in DONE; with a request; with a command. -/
theorem witness_TraceIsKeptUntilTheNextStart :
    (finished.ph = .done ∧ finished.host.head? = none ∧ step finished = .next (answer (step finished))) ∧
    step { finished with host := [.request 0] } = .next (answer (step { finished with host := [.request 0] })) ∧
    step { finished with host := [.command wordP2] } =
      .next (answer (step { finished with host := [.command wordP2] })) := ⟨⟨by decide, by decide, rfl⟩, rfl, rfl⟩
theorem witness_StatusOutputsByPhase : Inv encoded := encoded_inv
theorem witness_RenderingLosesNothing (p : Config.DisplayParams) :
    recordConsistent (makeRecord 0 .enc 0 stateP1) = true ∧ renderRecord p (makeRecord 0 .enc 0 stateP1) = renderRecord p (makeRecord 0 .enc 0 stateP1) :=
  ⟨by decide, rfl⟩

end Sys2Proof.Tests
end

section
/-! SUPPORT. What a micro-operation leaves in each field, and what a step can do, said once: the inversion
lemma of `step` by the agent that moves (R125), from which the step statements follow. -/

namespace Sys2Proof.Machine

section AfterMicroOpFields

variable (op : Op) (rnd : BitVec 4) (m : ByteMatrix) (s : State)

@[simp] theorem afterMicroOp_blk : (afterMicroOp op rnd m s).blk = s.blk := rfl

@[simp] theorem afterMicroOp_km : (afterMicroOp op rnd m s).km = s.km := rfl

@[simp] theorem afterMicroOp_st : (afterMicroOp op rnd m s).st = some m := rfl

@[simp] theorem afterMicroOp_rk : (afterMicroOp op rnd m s).rk = s.rk := rfl

@[simp] theorem afterMicroOp_tr :
    (afterMicroOp op rnd m s).tr = s.tr.write s.seq.toNat (makeRecord s.seq op rnd m) := rfl

@[simp] theorem afterMicroOp_seq : (afterMicroOp op rnd m s).seq = s.seq + 1 := rfl

@[simp] theorem afterMicroOp_nr : (afterMicroOp op rnd m s).nr = s.nr := rfl

@[simp] theorem afterMicroOp_ph :
    (afterMicroOp op rnd m s).ph = if op = .fin then .done else s.ph := rfl

@[simp] theorem afterMicroOp_ecause : (afterMicroOp op rnd m s).ecause = s.ecause := rfl

@[simp] theorem afterMicroOp_eval : (afterMicroOp op rnd m s).eval = s.eval := rfl

@[simp] theorem afterMicroOp_host : (afterMicroOp op rnd m s).host = s.host := rfl

@[simp] theorem afterMicroOp_reply : (afterMicroOp op rnd m s).reply = s.reply := rfl

end AfterMicroOpFields

variable {s t : State}

/-- The frame of a committed micro-operation (R29, R131). -/
theorem microOpKeeps_afterMicroOp (op : Op) (rnd : BitVec 4) (m : ByteMatrix) (s : State) :
    MicroOpKeeps s (afterMicroOp op rnd m s) :=
  ⟨rfl, rfl, rfl, rfl, rfl, rfl, rfl, fun _ => rfl, fun _ hn => Memory.read_write_ne _ _ (Ne.symm hn)⟩

/-- From BUSY a micro-operation goes on in BUSY, but `FIN` ends in DONE (R84, R131). -/
theorem afterMicroOp_ph_of_busy (hb : s.ph = .busy) (op : Op) (rnd : BitVec 4) (m : ByteMatrix) :
    (op = .fin ∧ (afterMicroOp op rnd m s).ph = .done) ∨
    (op ≠ .fin ∧ (afterMicroOp op rnd m s).ph = .busy) := by
  by_cases hf : op = .fin
  · exact .inl ⟨hf, if_pos hf⟩
  · exact .inr ⟨hf, (if_neg hf).trans hb⟩

/-- The host's move of a step is no operand of a micro-operation. -/
@[simp] theorem newMatrix_takeMove (u : Uop) (s : State) : newMatrix u s.takeMove = newMatrix u s := rfl

/-- `READ` writes the reply and nothing else (R157). -/
theorem execRead_eq_reply {n : BitVec 6} (h : execRead n s = .next t) : ∃ r, t = { s with reply := r } := by
  obtain ⟨-, -, rec, -, rfl⟩ | ⟨-, rfl⟩ := execRead_next h
  · exact ⟨some rec, rfl⟩
  · exact ⟨none, rfl⟩

/-- Nothing is fetched exactly at rest, with neither a command nor a request on the ports. -/
theorem fetch_none (h : s.fetch = .ok none) :
    s.ph ≠ .busy ∧ ∀ w, s.host.head? ≠ some (.command w) := by
  unfold State.fetch at h
  split at h
  · split at h <;> simp at h
  next hb =>
    refine ⟨hb, fun w hw => ?_⟩
    simp [hw] at h

/-- A fetched word is the control store's while BUSY and the host's at rest (R125, R126, R131). -/
theorem fetch_some {c : CodeWord} (h : s.fetch = .ok (some c)) :
    (s.ph = .busy ∧ ∃ u, controlStore s.nr.toNat s.seq.toNat = some u ∧ c = .uop (uopWord u)) ∨
    (s.ph ≠ .busy ∧ ∃ w, s.host.head? = some (.command w) ∧ c = .cmd w) ∨
    (s.ph ≠ .busy ∧ ∃ w, s.host.head? = some (.request w) ∧ c = .rd w) := by
  unfold State.fetch at h
  split at h
  next hb =>
    split at h
    next u hu => exact .inl ⟨hb, u, hu, by simpa [eq_comm] using h⟩
    next => simp at h
  next hb =>
    split at h
    next w hw => exact .inr (.inl ⟨hb, w, hw, by simpa [eq_comm] using h⟩)
    next w hw => exact .inr (.inr ⟨hb, w, hw, by simpa [eq_comm] using h⟩)
    all_goals simp at h

/-- What one step can do, by the agent that moves (R125): reset; nothing but the reply, at rest without a
command; the two outcomes of a command at rest; the control store's micro-operation while BUSY. -/
inductive StepCase (s : State) : State → Prop
  | reset (hr : s.host.head? = some .reset) : StepCase s s.afterReset
  | rest (hr : s.host.head? ≠ some .reset) (hb : s.ph ≠ .busy)
      (hc : ∀ w, s.host.head? ≠ some (.command w)) (reply : Option StepRecord) :
      StepCase s { s.takeMove with reply := reply }
  | launch (w : BitVec 272) (hc : s.host.head? = some (.command w)) (hb : s.ph ≠ .busy)
      (ks : BitVec 16) (key block : Block) (hd : decodeCmd w = .start ks key block)
      (nr : BitVec 4) (hk : roundsFor ks = some nr) :
      StepCase s (Machine.launch nr key block s.takeMove)
  | error (w : BitVec 272) (hc : s.host.head? = some (.command w)) (hb : s.ph ≠ .busy)
      (ks : BitVec 16) (key block : Block) (hd : decodeCmd w = .start ks key block)
      (hk : roundsFor ks = none) :
      StepCase s (raiseInvalidKeySize ks s.takeMove)
  | microOp (hr : s.host.head? ≠ some .reset) (hb : s.ph = .busy) (u : Uop)
      (hu : controlStore s.nr.toNat s.seq.toNat = some u) (hs : s.seq.toNat < Config.trDepth)
      (m : ByteMatrix) (hm : newMatrix u s = .ok m) :
      StepCase s (afterMicroOp u.op u.rnd m s.takeMove)

/-- A command taken at rest launches an invocation or enters the error state. -/
theorem stepCase_command {w : BitVec 272} (hc : s.host.head? = some (.command w)) (hb : s.ph ≠ .busy)
    (h : exec (decodeCmd w) s.takeMove = .next t) : StepCase s t := by
  obtain ⟨ks, key, block, hd⟩ : ∃ ks key block, decodeCmd w = .start ks key block := ⟨_, _, _, rfl⟩
  rw [hd] at h
  obtain ⟨hb', -⟩ | ⟨-, nr, hk, he⟩ | ⟨-, hk, he⟩ := execStart_cases ks key block s.takeMove
  · exact absurd hb' hb
  · cases he.symm.trans h
    exact .launch w hc hb ks key block hd nr hk
  · cases he.symm.trans h
    exact .error w hc hb ks key block hd hk

/-- Every step that answers a next state is one of the five. -/
theorem step_next (h : step s = .next t) : StepCase s t := by
  obtain ⟨hr, rfl⟩ | ⟨hr, hf, rfl⟩ | ⟨hr, c, i, hf, hd, he⟩ := step_cases h
  · exact .reset hr
  · obtain ⟨hb, hc⟩ := fetch_none hf
    exact .rest hr hb hc none
  obtain ⟨hb, u, hu, -⟩ | ⟨hb, w, hc, rfl⟩ | ⟨hb, w, hq, rfl⟩ := fetch_some hf
  · rw [step_busy hb hr hu] at h
    obtain ⟨-, -, hs, m, hm, rfl⟩ := microOp_next_iff.1 h
    exact .microOp hr hb u hu hs m hm
  · obtain rfl : decodeCmd w = i := by simpa [decode] using hd
    exact stepCase_command hc hb he
  · obtain rfl : Instr.read w = i := by simpa [decode] using hd
    obtain ⟨reply, rfl⟩ := execRead_eq_reply he
    exact .rest hr hb (by simp [hq]) reply

end Sys2Proof.Machine
end

section
/-! PROOFS. The invariant of R26 (log entries 3 and 16): each of the five step cases keeps it. -/

namespace Sys2Proof.Machine

variable {s t : State}

/-- Reset meets the invariant from any state (R27, R190). -/
theorem inv_afterReset (s : State) : Inv s.afterReset where
  idle := fun _ => ⟨rfl, rfl⟩
  busy := nofun
  done := nofun
  err := nofun
  roundKeys := by simp
  records := fun _ _ hn => absurd hn (Nat.not_lt_zero _)
  storage := ⟨rfl, rfl⟩

/-- The invariant speaks of no port. -/
theorem Inv.withPorts (h : Inv s) (host : List HostMove) (reply : Option StepRecord) :
    Inv { s with host := host, reply := reply } where
  idle := h.idle
  busy := h.busy
  done := h.done
  err := h.err
  roundKeys := h.roundKeys
  records := h.records
  storage := h.storage

/-- A selector gives only legal round counts (R18). -/
theorem legalRounds_of_roundsFor {ks : BitVec 16} {nr : BitVec 4} (h : roundsFor ks = some nr) :
    LegalRounds nr.toNat := by
  obtain ⟨-, rfl⟩ | ⟨-, rfl⟩ | ⟨-, rfl⟩ := roundsFor_eq_some.1 h <;> decide

/-- A launch meets the invariant from any state with canonical storage: KGEN writes the keys in use (R127). -/
theorem inv_launch {ks : BitVec 16} {nr : BitVec 4} (hk : roundsFor ks = some nr) (key block : Block)
    (h : StorageInv s) : Inv (launch nr key block s) where
  idle := nofun
  busy := fun _ => ⟨legalRounds_of_roundsFor hk, by simp, rfl, by simp, rfl⟩
  done := nofun
  err := nofun
  roundKeys := fun _ => ⟨encodeBlock key, rfl, fun r hr => (read_kgen _ _ _ r).trans (if_pos hr)⟩
  records := fun _ _ hn => absurd hn (Nat.not_lt_zero _)
  storage := by
    have hnr := legalRounds_of_roundsFor hk
    exact ⟨wf_kgen (by simp only [Config.rkDepth]; omega) h.1, h.2⟩

/-- The error entry meets the invariant from any state with canonical storage (R172). -/
theorem inv_raiseInvalidKeySize {ks : BitVec 16} (hk : roundsFor ks = none) (h : StorageInv s) :
    Inv (raiseInvalidKeySize ks s) where
  idle := nofun
  busy := nofun
  done := nofun
  err := fun _ => ⟨rfl, rfl, roundsFor_eq_none.1 hk⟩
  roundKeys := by simp
  records := fun _ _ hn => absurd hn (Nat.not_lt_zero _)
  storage := h

/-- The control store's micro-operation keeps the invariant: `FIN`, which ends BUSY, comes at the last step
and nowhere else, so `SEQ` stays in its range in either phase (R129, R131). -/
theorem inv_afterMicroOp (h : Inv s) (hb : s.ph = .busy) {u : Uop}
    (hu : controlStore s.nr.toNat s.seq.toNat = some u) (m : ByteMatrix) :
    Inv (afterMicroOp u.op u.rnd m s) := by
  obtain ⟨hnr, hseq, hcause, -, hblk⟩ := h.busy hb
  have hdepth : s.seq.toNat < Config.trDepth := by simp only [Config.trDepth]; omega
  have hsucc := toNat_seq_succ hdepth
  have hfin := (controlStore_ends hu).1
  have hph := afterMicroOp_ph_of_busy hb u.op u.rnd m
  exact
  { idle := fun hp => by rw [hp] at hph; simp at hph
    busy := by
      intro hp
      have hlast : s.seq.toNat ≠ 4 * s.nr.toNat + 1 := hfin.not.1 (by rw [hp] at hph; simpa using hph)
      exact ⟨hnr, by simp only [afterMicroOp_seq, afterMicroOp_nr, hsucc]; omega, hcause, fun _ => rfl, hblk⟩
    done := by
      intro hp
      have hlast : s.seq.toNat = 4 * s.nr.toNat + 1 := hfin.1 (by rw [hp] at hph; simpa using hph)
      exact ⟨hnr, by simp only [afterMicroOp_seq, afterMicroOp_nr, hsucc]; omega, hcause⟩
    err := fun hp => by rw [hp] at hph; simp at hph
    roundKeys := fun _ => h.roundKeys (.inl hb)
    records := by
      intro _ n hn
      rw [afterMicroOp_seq, hsucc] at hn
      rw [afterMicroOp_tr]
      by_cases hlast : s.seq.toNat = n
      · subst hlast
        exact ⟨_, Memory.read_write_same _ _ _, rfl⟩
      · rw [Memory.read_write_ne _ _ hlast]
        exact h.records (.inl hb) n (by omega)
    storage := ⟨h.storage.1, Memory.wf_write _ hdepth h.storage.2⟩ }

/-- Settles O41: each of the five step cases keeps the invariant. -/
theorem stepKeepsTheInvariant : Obligations.StepKeepsTheInvariant := by
  intro s t h hst
  cases step_next hst with
  | reset _ => exact inv_afterReset s
  | rest _ _ _ reply => exact h.withPorts s.host.tail reply
  | launch _ _ _ _ key block _ _ hk => exact inv_launch hk key block h.storage
  | error _ _ _ _ _ _ _ hk => exact inv_raiseInvalidKeySize hk h.storage
  | microOp _ hb _ hu _ m _ => exact inv_afterMicroOp (h.withPorts s.host.tail none) hb hu m

end Sys2Proof.Machine
end

section
/-! PROOFS. The seven micro-operations as one: where `microOp` stops and where it completes, and through the
opcode each of the seven. -/

namespace Sys2Proof.Machine

variable {s t : State}

/-- A legal micro-operation outside BUSY is not enabled, whatever its operands hold (R131). -/
theorem microOp_of_not_busy {op : Op} {rnd : BitVec 4} (hl : uopLegal op rnd = true) (hb : s.ph ≠ .busy)
    (newSt : Except Fault ByteMatrix) : microOp op rnd newSt s = .fault .sequencerNotEnabled := by
  simp [microOp, hl, hb]

/-- An enabled micro-operation stops with the fault of its operand (R28). -/
theorem microOp_of_error {op : Op} {rnd : BitVec 4} (hl : uopLegal op rnd = true) (hb : s.ph = .busy)
    (f : Fault) : microOp op rnd (.error f) s = .fault f := by
  simp [microOp, hl, hb]

/-- An enabled micro-operation whose record has no entry in `TR` stops (R40). -/
theorem microOp_of_trace_full {op : Op} {rnd : BitVec 4} (hl : uopLegal op rnd = true) (hb : s.ph = .busy)
    (hs : Config.trDepth ≤ s.seq.toNat) (m : ByteMatrix) :
    microOp op rnd (.ok m) s = .fault .traceIndexOutOfRange := by
  simp [microOp, commitMicroOp, hl, hb, Nat.not_lt.2 hs]

/-- A well-formed micro-operation is a legal opcode with its round (R64). -/
theorem exists_uop {i : Instr} (hi : IsMicroOp i) (hw : i.wf = true) :
    ∃ u, i = uopInstr u ∧ uopLegal u.op u.rnd = true := by
  cases i with
  | start _ _ _ => exact hi.elim
  | read _ => exact hi.elim
  | reserved _ => exact hi.elim
  | enc => exact ⟨⟨.enc, 0⟩, rfl, rfl⟩
  | arki => exact ⟨⟨.arki, 0⟩, rfl, rfl⟩
  | fin => exact ⟨⟨.fin, 0⟩, rfl, rfl⟩
  | sub r => exact ⟨⟨.sub, r⟩, rfl, by simpa [Instr.wf, uopLegal] using hw⟩
  | rot r => exact ⟨⟨.rot, r⟩, rfl, by simpa [Instr.wf, uopLegal] using hw⟩
  | mix r => exact ⟨⟨.mix, r⟩, rfl, by simpa [Instr.wf, uopLegal] using hw⟩
  | ark r => exact ⟨⟨.ark, r⟩, rfl, by simpa [Instr.wf, uopLegal] using hw⟩

theorem isMicroOp_uopInstr (u : Uop) : IsMicroOp (uopInstr u) := by
  obtain ⟨op, rnd⟩ := u
  cases op <;> trivial

/-- A legal opcode with its round is a well-formed instruction (R64). -/
theorem wf_uopInstr {u : Uop} (hl : uopLegal u.op u.rnd = true) : (uopInstr u).wf = true := by
  obtain ⟨op, rnd⟩ := u
  cases op with
  | enc => rfl
  | arki => rfl
  | fin => rfl
  | sub => simpa [uopInstr, Instr.wf, uopLegal] using hl
  | rot => simpa [uopInstr, Instr.wf, uopLegal] using hl
  | mix => simpa [uopInstr, Instr.wf, uopLegal] using hl
  | ark => simpa [uopInstr, Instr.wf, uopLegal] using hl

/-- Only `ENC` makes its matrix without `ST` (R29). -/
theorem newMatrix_of_st_none {u : Uop} (hu : u.op ≠ .enc) (h : s.st = none) :
    newMatrix u s = .error (.noValue .st) := by
  obtain ⟨op, rnd⟩ := u
  have hst : s.readSt = .error (.noValue .st) := by simp [State.readSt, h]
  cases op with
  | enc => exact absurd rfl hu
  | fin => exact hst
  | arki => simp [newMatrix, State.xorRoundKey, hst]
  | ark => simp [newMatrix, State.xorRoundKey, hst]
  | sub => simp [newMatrix, State.transformSt, hst]
  | rot => simp [newMatrix, State.transformSt, hst]
  | mix => simp [newMatrix, State.transformSt, hst]

/-- With a value in `ST`, the fault of a round-key addition is that of its round key. -/
theorem xorRoundKey_of_error {r : BitVec 4} {f : Fault} (h : s.st ≠ none) (hk : s.readRk r = .error f) :
    s.xorRoundKey r = .error f := by
  obtain ⟨m, hm⟩ := Option.ne_none_iff_exists'.1 h
  simp [State.xorRoundKey, readSt_eq_ok.2 hm, hk]

/-- A round key in use that holds no value is not read (R28). -/
theorem readRk_of_none {r : BitVec 4} (hr : r.toNat ≤ s.nr.toNat) (h : s.rk.read r.toNat = none) :
    s.readRk r = .error (.noValue (.rk r)) := by
  simp [State.readRk, hr, h]

/-- A round key above `NR` is not in use (R14, U7). -/
theorem readRk_of_lt {r : BitVec 4} (hr : s.nr.toNat < r.toNat) :
    s.readRk r = .error (.roundKeyNotInUse r) := by
  simp [State.readRk, Nat.not_le.2 hr]

/-- Outside BUSY no micro-operation is enabled. -/
theorem exec_of_not_busy {i : Instr} (hi : IsMicroOp i) (hw : i.wf = true) (hb : s.ph ≠ .busy) :
    exec i s = .fault .sequencerNotEnabled := by
  obtain ⟨u, rfl, hl⟩ := exists_uop hi hw
  rw [exec_uopInstr hl]
  exact microOp_of_not_busy hl hb _

/-- While BUSY a legal micro-operation stops with the fault of its operand. -/
theorem exec_uopInstr_of_error {u : Uop} {f : Fault} (hl : uopLegal u.op u.rnd = true) (hb : s.ph = .busy)
    (hm : newMatrix u s = .error f) : exec (uopInstr u) s = .fault f := by
  rw [exec_uopInstr hl, hm]
  exact microOp_of_error hl hb f

/-- A micro-operation that reads `ST` stops where `ST` holds no value. -/
theorem exec_of_st_none {i : Instr} (hi : IsMicroOp i) (hw : i.wf = true) (hne : i ≠ .enc)
    (hb : s.ph = .busy) (h : s.st = none) : exec i s = .fault (.noValue .st) := by
  obtain ⟨u, rfl, hl⟩ := exists_uop hi hw
  have hu : u.op ≠ .enc := fun he => hne (by simp [uopInstr, he])
  exact exec_uopInstr_of_error hl hb (newMatrix_of_st_none hu h)

/-- `ENC` stops where `BLK` holds no value. -/
theorem exec_enc_of_blk_none (hb : s.ph = .busy) (h : s.blk = none) :
    exec .enc s = .fault (.noValue .blk) :=
  exec_uopInstr_of_error (u := ⟨.enc, 0⟩) rfl hb (by simp [newMatrix, State.readBlk, h])

/-- `ARKI` stops with the fault of the round key at index 0. -/
theorem exec_arki_of_error {f : Fault} (hb : s.ph = .busy) (hst : s.st ≠ none)
    (hk : s.readRk 0 = .error f) : exec .arki s = .fault f :=
  exec_uopInstr_of_error (u := ⟨.arki, 0⟩) rfl hb (xorRoundKey_of_error hst hk)

/-- `ARK r` stops with the fault of the round key at index `r`. -/
theorem exec_ark_of_error {r : BitVec 4} {f : Fault} (hw : (Instr.ark r).wf = true) (hb : s.ph = .busy)
    (hst : s.st ≠ none) (hk : s.readRk r = .error f) : exec (.ark r) s = .fault f :=
  exec_uopInstr_of_error (u := ⟨.ark, r⟩) (by simpa [Instr.wf, uopLegal] using hw) hb
    (xorRoundKey_of_error hst hk)

/-- With its operands there and no entry of `TR` left, a micro-operation stops. -/
theorem exec_of_trace_full {i : Instr} (hi : IsMicroOp i) (hw : i.wf = true) (hb : s.ph = .busy)
    (ho : OperandsHold i s) (hs : Config.trDepth ≤ s.seq.toNat) :
    exec i s = .fault .traceIndexOutOfRange := by
  obtain ⟨u, m, rfl, hl, hm⟩ := newMatrix_of_operandsHold hi hw ho
  rw [exec_uopInstr hl, hm]
  exact microOp_of_trace_full hl hb hs m

/-- With its operands there and an entry of `TR` left, a micro-operation completes. -/
theorem exec_completes {i : Instr} (hi : IsMicroOp i) (hw : i.wf = true) (hb : s.ph = .busy)
    (ho : OperandsHold i s) (hs : s.seq.toNat < Config.trDepth) : ∃ t, exec i s = .next t := by
  obtain ⟨u, m, rfl, hl, hm⟩ := newMatrix_of_operandsHold hi hw ho
  rw [exec_uopInstr hl]
  exact ⟨_, microOp_next_iff.2 ⟨hl, hb, hs, m, hm, rfl⟩⟩

/-- Settles O26, one lemma per clause. -/
theorem microOperationsStopByName : Obligations.MicroOperationsStopByName :=
  ⟨fun _ _ hi hw hb => exec_of_not_busy hi hw hb,
    fun _ _ hi hw hne hb hst => exec_of_st_none hi hw hne hb hst,
    fun _ hb hblk => exec_enc_of_blk_none hb hblk,
    fun _ hb hst hk => exec_arki_of_error hb hst (readRk_of_none (Nat.zero_le _) hk),
    fun _ _ hw hb hst hr hk => exec_ark_of_error hw hb hst (readRk_of_none hr hk),
    fun _ _ hw hb hst hr => exec_ark_of_error hw hb hst (readRk_of_lt hr),
    fun _ _ hi hw hb ho hs => exec_of_trace_full hi hw hb ho hs,
    fun _ _ hi hw hb ho hs => exec_completes hi hw hb ho hs⟩

/-- Settles O25: a micro-operation that answers a next state commits, and the commit's frame is this. -/
theorem microOperationsFrame : Obligations.MicroOperationsFrame := by
  intro i s t hi h
  obtain ⟨u, m, -, -, -, -, -, rfl⟩ := exec_microOp_next hi h
  exact microOpKeeps_afterMicroOp u.op u.rnd m s

end Sys2Proof.Machine
end

section
/-! PROOFS. The writers of each register (R29), by the three kinds of instructions, and the transitions of
`PH` (R19) and `SEQ` (R17), by the step cases. -/

namespace Sys2Proof.Machine

variable {s t : State}

/-- Of the micro-operations `FIN` alone writes `PH`, and it writes `ST` with the value it holds (R84). -/
theorem exec_microOp_ph_st {i : Instr} (hi : IsMicroOp i) (h : exec i s = .next t) :
    (i ≠ .fin → t.ph = s.ph) ∧ (i = .fin → t.st = s.st) := by
  obtain ⟨⟨op, rnd⟩, m, rfl, -, -, -, hm, rfl⟩ := exec_microOp_next hi h
  constructor
  · intro hne
    have hop : op ≠ .fin := by rintro rfl; exact hne rfl
    exact if_neg hop
  · intro he
    obtain rfl : op = .fin := by cases op <;> simp [uopInstr] at he ⊢
    exact (readSt_eq_ok.1 hm).symm

/-- `START` writes neither `ST` nor `TR`, no port and no reply (R127, R172). -/
theorem execStart_keeps {ks : BitVec 16} {key block : Block} (h : execStart ks key block s = .next t) :
    t.st = s.st ∧ t.tr = s.tr ∧ t.host = s.host ∧ t.reply = s.reply := by
  obtain ⟨-, he⟩ | ⟨-, nr, -, he⟩ | ⟨-, -, he⟩ := execStart_cases ks key block s <;>
    cases he.symm.trans h <;> exact ⟨rfl, rfl, rfl, rfl⟩

/-- Settles O39: a micro-operation by its frame, `START` and `READ` by theirs. -/
theorem registersHaveTheirWritersOnly : Obligations.RegistersHaveTheirWritersOnly := by
  intro i s t h
  by_cases hi : IsMicroOp i
  · obtain ⟨hblk, hkm, hnr, hcause, heval, hhost, hreply, hrk, -⟩ := microOperationsFrame i s t hi h
    obtain ⟨hph, hst⟩ := exec_microOp_ph_st hi h
    exact ⟨fun _ => ⟨hblk, hkm, hnr, hcause, heval, hrk⟩, absurd hi, fun _ => absurd hi, fun _ => hph, hst,
      hhost, fun _ => hreply⟩
  · cases i with
    | start ks key block =>
      obtain ⟨hst, htr, hhost, hreply⟩ := execStart_keeps h
      exact ⟨fun hn => absurd rfl (hn ks key block), fun _ => ⟨hst, fun n => by rw [htr]⟩,
        fun hn => absurd rfl (hn ks key block), fun hm => absurd hm hi, nofun, hhost, fun _ => hreply⟩
    | read n =>
      obtain ⟨reply, rfl⟩ := execRead_eq_reply h
      exact ⟨fun _ => ⟨rfl, rfl, rfl, rfl, rfl, fun _ => rfl⟩, fun _ => ⟨rfl, fun _ => rfl⟩,
        fun _ _ => ⟨rfl, rfl⟩, fun hm => absurd hm hi, nofun, rfl, fun hn => absurd rfl (hn n)⟩
    | reserved x => exact nomatch h
    | _ => exact absurd trivial hi

/-- Settles O37: the phase each step case leaves. -/
theorem phaseTransitions : Obligations.PhaseTransitions := by
  refine ⟨⟨rfl, rfl, rfl, rfl⟩, fun s t hr h => ?_⟩
  cases step_next h with
  | reset hr' => exact absurd hr' hr
  | rest _ hb _ _ => exact ⟨fun hb' => absurd hb' hb, fun _ => .inl rfl⟩
  | launch w hc hb _ _ _ _ _ _ => exact ⟨fun hb' => absurd hb' hb, fun _ => .inr ⟨⟨w, hc⟩, .inl rfl⟩⟩
  | error w hc hb _ _ _ _ _ => exact ⟨fun hb' => absurd hb' hb, fun _ => .inr ⟨⟨w, hc⟩, .inr rfl⟩⟩
  | microOp _ hb u hu _ m _ =>
    refine ⟨fun _ => ?_, fun hb' => absurd hb hb'⟩
    obtain ⟨hf, hd⟩ | ⟨-, hgo⟩ := afterMicroOp_ph_of_busy (s := s.takeMove) hb u.op u.rnd m
    · exact .inr ⟨hd, u, hu, hf⟩
    · exact .inl hgo

/-- Settles O38: the counter each step case leaves; below the trace's depth it does not wrap. -/
theorem sequenceCounterMoves : Obligations.SequenceCounterMoves := by
  intro s t hr h
  cases step_next h with
  | reset hr' => exact absurd hr' hr
  | rest _ hb hc _ =>
    exact ⟨fun hb' => absurd hb' hb, fun _ ⟨w, hw⟩ => absurd hw (hc w), fun _ _ => rfl⟩
  | launch w hc hb _ _ _ _ _ _ =>
    exact ⟨fun hb' => absurd hb' hb, fun _ _ => rfl, fun _ hn => absurd hc (hn w)⟩
  | error w hc hb _ _ _ _ _ =>
    exact ⟨fun hb' => absurd hb' hb, fun _ _ => rfl, fun _ hn => absurd hc (hn w)⟩
  | microOp _ hb u _ hs m _ =>
    exact ⟨fun _ => toNat_seq_succ hs, fun hb' => absurd hb hb', fun hb' => absurd hb hb'⟩

end Sys2Proof.Machine
end

section
/-! PROOFS. A step from a well-formed state always answers a next state: reset, the sequencer's
micro-operation, and each of the host's moves at rest. -/

namespace Sys2Proof.Machine

variable {s : State}

/-- Reset is taken in every phase (R190). -/
theorem step_of_reset (hr : s.host.head? = some .reset) : step s = .next s.afterReset := by
  simp [step, hr]

/-- Without reset, a step with nothing fetched rests. -/
theorem step_of_fetch_none (hr : s.host.head? ≠ some .reset) (hf : s.fetch = .ok none) :
    step s = .next s.takeMove := by
  simp [step, hf]

/-- Without reset, a step executes the instruction it fetched. -/
theorem step_of_fetch_some {c : CodeWord} {i : Instr} (hr : s.host.head? ≠ some .reset)
    (hf : s.fetch = .ok (some c)) (hd : decode c = .ok i) : step s = exec i s.takeMove := by
  simp [step, hf, hd]

/-- At rest the fetch gives nothing, a command or a request, and no fault (R125). -/
theorem fetch_at_rest (hb : s.ph ≠ .busy) :
    s.fetch = .ok none ∨ (∃ w, s.fetch = .ok (some (.cmd w))) ∨ ∃ w, s.fetch = .ok (some (.rd w)) := by
  rw [State.fetch, if_neg hb]
  split <;> simp

/-- `START` is total. -/
theorem execStart_answers (ks : BitVec 16) (key block : Block) (s : State) :
    ∃ t, execStart ks key block s = .next t := by
  obtain ⟨-, he⟩ | ⟨-, nr, -, he⟩ | ⟨-, -, he⟩ := execStart_cases ks key block s <;>
    exact ⟨_, he⟩

/-- `READ` is total where every record below `SEQ` is there (R26 (e), R157). -/
theorem execRead_answers (h : RecordsInv s) (n : BitVec 6) : ∃ t, execRead n s = .next t := by
  unfold execRead
  split
  next hc =>
    obtain ⟨rec, hrec, -⟩ := h (.inr hc.1) n.toNat hc.2
    exact ⟨_, by rw [hrec]⟩
  next => exact ⟨_, rfl⟩

/-- In a well-formed running state the control store's micro-operation finds its operands: `ENC` comes at
`SEQ` 0 alone and reads `BLK`, every other one finds `ST` written, and a round key it names is in use. -/
theorem Inv.operandsHold (h : Inv s) (hb : s.ph = .busy) {u : Uop}
    (hu : controlStore s.nr.toNat s.seq.toNat = some u) : OperandsHold (uopInstr u) s := by
  obtain ⟨-, -, -, hst, hblk⟩ := h.busy hb
  obtain ⟨km, -, hkeys⟩ := h.roundKeys (.inl hb)
  have hr := (controlStore_legal hu).2
  have henc := (controlStore_ends hu).2
  have hst' : u.op ≠ .enc → s.st.isSome := fun hne => hst (Nat.one_le_iff_ne_zero.2 (henc.not.1 hne))
  have hkey : ∀ r ≤ s.nr.toNat, (s.rk.read r).isSome := fun r hr => by simp [hkeys r hr]
  obtain ⟨op, rnd⟩ := u
  cases op with
  | enc => exact hblk
  | arki => exact ⟨hst' nofun, hkey 0 (Nat.zero_le _)⟩
  | ark => exact ⟨hst' nofun, hr, hkey _ hr⟩
  | sub => exact hst' nofun
  | rot => exact hst' nofun
  | mix => exact hst' nofun
  | fin => exact hst' nofun

/-- A step of a well-formed running machine without reset completes its micro-operation (R131). -/
theorem Inv.step_busy_answers (h : Inv s) (hb : s.ph = .busy) (hr : s.host.head? ≠ some .reset) :
    ∃ t, step s = .next t := by
  obtain ⟨hnr, hseq, -⟩ := h.busy hb
  obtain ⟨u, hu⟩ := Option.isSome_iff_exists.1 ((controlStore_isSome _ _).2 ⟨hnr, hseq⟩)
  have hl := (controlStore_legal hu).1
  have ho : OperandsHold (uopInstr u) s.takeMove := (h.withPorts s.host.tail none).operandsHold hb hu
  obtain ⟨hf, hd⟩ := fetch_busy hb hu
  rw [step_of_fetch_some hr hf hd]
  exact exec_completes (isMicroOp_uopInstr u) (wf_uopInstr hl) hb ho
    (by simp only [takeMove_seq, Config.trDepth]; omega)

/-- Settles O42: reset, a running machine, and the host's moves at rest. -/
theorem wellFormedStatesNeverStop : Obligations.WellFormedStatesNeverStop := by
  intro s h
  by_cases hr : s.host.head? = some .reset
  · exact ⟨_, step_of_reset hr⟩
  by_cases hb : s.ph = .busy
  · exact h.step_busy_answers hb hr
  obtain hf | ⟨w, hf⟩ | ⟨w, hf⟩ := fetch_at_rest hb
  · exact ⟨_, step_of_fetch_none hr hf⟩
  · rw [step_of_fetch_some hr hf rfl]
    exact execStart_answers _ _ _ _
  · rw [step_of_fetch_some hr hf rfl]
    exact execRead_answers (s := s.takeMove) h.records w

end Sys2Proof.Machine
end

section
/-! PROOFS. The reset state (R27) and the status outputs (R20). -/

namespace Sys2Proof.Machine

/-- Settles O36: each value is the one `State.reset` lists. -/
theorem resetStateIsTheSpecs : Obligations.ResetStateIsTheSpecs :=
  ⟨rfl, rfl, rfl, rfl, rfl, rfl, rfl, rfl, Memory.read_empty, Memory.read_empty⟩

/-- Settles O40: reset meets the invariant, and it is in IDLE, where the trace invariants ask nothing. -/
theorem resetMeetsTheInvariants : Obligations.ResetMeetsTheInvariants :=
  ⟨inv_afterReset State.reset, nofun, nofun⟩

/-- `TLEN` is 0 in IDLE and in ERR (R20, R26). -/
theorem Inv.tlen_of_idle_or_err {s : State} (h : Inv s) (hp : s.ph = .idle ∨ s.ph = .err) :
    s.tlen.toNat = 0 := by
  obtain hp | hp := hp
  · exact (h.idle hp).1
  · exact (h.err hp).1

/-- `TLEN` is the number of the sequence's steps in DONE (R20, R26). -/
theorem Inv.tlen_of_done {s : State} (h : Inv s) (hp : s.ph = .done) :
    s.tlen.toNat = 4 * s.nr.toNat + 2 :=
  (h.done hp).2.1

/-- Settles O54: the flags are tests of `PH`, and `TLEN` is `SEQ`, which the invariant bounds by phase. -/
theorem statusOutputsByPhase : Obligations.StatusOutputsByPhase := by
  refine ⟨fun s => ⟨?_, ?_, ?_, ?_, rfl⟩, fun s h => ⟨fun hp => ?_, fun hp => ?_⟩⟩
  · exact decide_eq_true_iff
  · exact decide_eq_true_iff
  · exact decide_eq_true_iff
  · exact decide_eq_true_iff
  · exact h.tlen_of_idle_or_err (hp.imp_right of_decide_eq_true)
  · exact h.tlen_of_done (of_decide_eq_true hp)

end Sys2Proof.Machine
end

section
/-! PROOFS. The storage spaces keep their canonical form (R40), the control is a function of `NR` and `SEQ`
alone (R129), and the trace's retention and its end (R57). -/

namespace Sys2Proof.Machine

variable {s t : State}

/-- A micro-operation writes `TR` at `SEQ` and no round key, so the storage stays canonical (R131, R40). -/
theorem storageInv_afterMicroOp (h : StorageInv s) (hs : s.seq.toNat < Config.trDepth) (op : Op)
    (rnd : BitVec 4) (m : ByteMatrix) : StorageInv (afterMicroOp op rnd m s) :=
  ⟨h.1, Memory.wf_write _ hs h.2⟩

/-- Settles O43: each of the five step cases keeps the canonical form. -/
theorem storageStaysCanonical : Obligations.StorageStaysCanonical := by
  intro s t h hst
  cases step_next hst with
  | reset _ => exact (inv_afterReset s).storage
  | rest _ _ _ _ => exact h
  | launch _ _ _ _ key block _ _ hk => exact (inv_launch (s := s.takeMove) hk key block h).storage
  | error _ _ _ _ _ _ _ _ => exact h
  | microOp _ _ u _ hs m _ => exact storageInv_afterMicroOp (s := s.takeMove) h hs u.op u.rnd m

/-- While BUSY a step that answers moves `SEQ`, `PH` and `NR` as the control store's word at `NR` and `SEQ`
says, and by nothing else (R131). -/
theorem step_busy_control (hb : s.ph = .busy) (hr : s.host.head? ≠ some .reset) (h : step s = .next t) :
    ∃ u, controlStore s.nr.toNat s.seq.toNat = some u ∧ t.seq = s.seq + 1 ∧
      t.ph = (if u.op = .fin then .done else .busy) ∧ t.nr = s.nr := by
  cases step_next h with
  | reset hr' => exact absurd hr' hr
  | rest _ hb' _ _ => exact absurd hb hb'
  | launch _ _ hb' _ _ _ _ _ _ => exact absurd hb hb'
  | error _ _ hb' _ _ _ _ _ => exact absurd hb hb'
  | microOp _ _ u hu _ m _ => exact ⟨u, hu, rfl, by simp [hb], rfl⟩

/-- Settles O48: both runs have the same word of the control store, and their control follows it alone. -/
theorem dataNeverSteersControl : Obligations.DataNeverSteersControl := by
  intro s s' t t' hb hb' hnr hseq hr hr' h h'
  obtain ⟨u, hu, htseq, htph, htnr⟩ := step_busy_control hb hr h
  obtain ⟨u', hu', htseq', htph', htnr'⟩ := step_busy_control hb' hr' h'
  obtain rfl : u = u' := by simpa [hnr, hseq, hu'] using hu.symm
  exact ⟨(fetch_busy hb hu).1.trans (fetch_busy hb' hu').1.symm, by rw [htseq, htseq', hseq], htph.trans htph'.symm,
    by rw [htnr, htnr', hnr]⟩

/-- Outside DONE every `READ` is refused (R50, R157). -/
theorem execRead_of_not_done (n : BitVec 6) (hd : s.ph ≠ .done) :
    execRead n s = .next { s with reply := none } :=
  if_neg fun hc => hd hc.1

/-- A step at rest that takes a command ends outside DONE with `SEQ` at 0, and writes no entry of `TR`
(R127, R172). -/
theorem step_command_at_rest {w : BitVec 272} (hb : s.ph ≠ .busy) (hc : s.host.head? = some (.command w))
    (h : step s = .next t) : t.ph ≠ .done ∧ t.seq = 0 ∧ t.tr = s.tr := by
  cases step_next h with
  | reset hr => simp [hc] at hr
  | rest _ _ hn _ => exact absurd hc (hn w)
  | launch _ _ _ _ _ _ _ _ _ => exact ⟨nofun, rfl, rfl⟩
  | error _ _ _ _ _ _ _ _ => exact ⟨nofun, rfl, rfl⟩
  | microOp _ hb' _ _ _ _ _ => exact absurd hb' hb

/-- A step at rest without reset and command writes no field but the ports (R49, R133). -/
theorem step_at_rest (hb : s.ph ≠ .busy) (hr : s.host.head? ≠ some .reset)
    (hc : ∀ w, s.host.head? ≠ some (.command w)) (h : step s = .next t) :
    ∃ reply, t = { s.takeMove with reply := reply } := by
  cases step_next h with
  | reset hr' => exact absurd hr' hr
  | rest _ _ _ reply => exact ⟨reply, rfl⟩
  | launch w hw _ _ _ _ _ _ _ => exact absurd hw (hc w)
  | error w hw _ _ _ _ _ _ => exact absurd hw (hc w)
  | microOp _ hb' _ _ _ _ _ => exact absurd hb' hb

/-- Settles O53: at rest only a command ends the retention, and it leaves DONE, where alone `READ` is
enabled. -/
theorem traceIsKeptUntilTheNextStart : Obligations.TraceIsKeptUntilTheNextStart := by
  intro s t hd h
  have hb : s.ph ≠ .busy := by simp [hd]
  refine ⟨fun hm => ?_, fun ⟨w, hc⟩ => ?_⟩
  · have hr : s.host.head? ≠ some .reset := by intro hr; simp [hr] at hm
    have hc : ∀ w, s.host.head? ≠ some (.command w) := by intro w hc; simp [hc] at hm
    obtain ⟨reply, rfl⟩ := step_at_rest hb hr hc h
    exact ⟨rfl, fun _ => rfl⟩
  · obtain ⟨hph, hseq, htr⟩ := step_command_at_rest hb hc h
    exact ⟨hph, by simp [hseq], fun n => by rw [htr], fun n => execRead_of_not_done n hph⟩

end Sys2Proof.Machine
end

section
/-! PROOFS. The bit positions of bytes, cells and fields (R43, R44, R61, R62). -/

namespace Sys2Proof.Machine

/-- Byte `n` of a block stands at bits `8n+7 : 8n` of its packing (R43). -/
theorem extractLsb'_packBlock (b : Block) (n : Fin 16) : (packBlock b).extractLsb' (8 * n.val) 8 = b[n] := by
  have h := unpackBlock_byte (packBlock b) n.isLt
  rw [unpackBlock_packBlock] at h
  exact h.symm

/-- Cell `[i][j]` of a matrix stands at bits `8(i+4j)+7 : 8(i+4j)` of its packing (R44). -/
theorem extractLsb'_packMatrix (m : ByteMatrix) (i j : Fin 4) :
    (packMatrix m).extractLsb' (8 * (i.val + 4 * j.val)) 8 = m[i][j] := by
  have h := extractLsb'_packBlock (decodeMatrix m) ⟨i.val + 4 * j.val, by omega⟩
  have hi : (i.val + 4 * j.val) % 4 = i.val := by omega
  have hj : (i.val + 4 * j.val) / 4 = j.val := by omega
  simpa [packMatrix, hi, hj] using h

/-- Byte `n` of the block in the 128 bits from `k` up stands at bits `k+8n+7 : k+8n` of the word. -/
theorem unpackBlock_extractLsb' {l : Nat} (w : BitVec l) (k : Nat) (n : Fin 16) :
    (unpackBlock (w.extractLsb' k 128))[n] = w.extractLsb' (k + 8 * n.val) 8 := by
  rw [Fin.getElem_fin, unpackBlock_byte _ n.isLt]
  apply BitVec.eq_of_getLsbD_eq
  intro i hi
  have hn : 8 * n.val + i < 128 := by omega
  simp [hn, Nat.add_assoc]

/-- What a `CMD` word decodes to stands at the positions of R61. -/
theorem commandWord_positions {w : BitVec 272} {ks : BitVec 16} {key block : Block}
    (h : decodeCmd w = .start ks key block) :
    w.extractLsb' 256 16 = ks ∧
      ∀ n : Fin 16, w.extractLsb' (128 + 8 * n.val) 8 = key[n] ∧ w.extractLsb' (8 * n.val) 8 = block[n] := by
  obtain ⟨rfl, rfl, rfl⟩ := Instr.start.inj h
  refine ⟨rfl, fun n => ⟨(unpackBlock_extractLsb' w 128 n).symm, ?_⟩⟩
  simpa using (unpackBlock_extractLsb' w 0 n).symm

/-- The `CMD` word of `START` decodes to it (R61). -/
theorem decodeCmd_commandWord (ks : BitVec 16) (key block : Block) :
    decodeCmd (ks ++ packBlock key ++ packBlock block) = .start ks key block := by
  rw [decodeCmd, commandWord_keySize, commandWord_key, commandWord_block, unpackBlock_packBlock,
    unpackBlock_packBlock]

/-- `op` stands at bits 6:4 of a `UOP` word (R62). -/
theorem uopWord_op (u : Uop) : (uopWord u).extractLsb' 4 3 = opCode u.op := by
  rw [uopWord, BitVec.extractLsb'_append_eq_left]

/-- `rnd` stands at bits 3:0 of a `UOP` word (R62). -/
theorem uopWord_rnd (u : Uop) : (uopWord u).extractLsb' 0 4 = u.rnd := by
  rw [uopWord, BitVec.extractLsb'_append_eq_right]

/-- Settles O58: the positions of the decoder are those of the encoder by the round trip. -/
theorem packingAndWordPositions : Obligations.PackingAndWordPositions :=
  ⟨extractLsb'_packBlock, extractLsb'_packMatrix,
    fun ks key block => ⟨_, rfl, commandWord_positions (decodeCmd_commandWord ks key block)⟩,
    fun _ _ _ _ h => commandWord_positions (Except.ok.inj h),
    fun u => ⟨uopWord_op u, uopWord_rnd u⟩, rfl⟩

end Sys2Proof.Machine
end

section
/-! PROOFS. The code words: each `UOP` word is its two fields, with the reserved opcode or a micro-operation's
(R62, R65), a `CMD` word is its three (R61); from there both directions of the round trip and the refusals. -/

namespace Sys2Proof.Machine

/-- The opcode numbers read back to their operations, and only they (R63). -/
theorem opOfCode_eq_some {c : BitVec 3} {op : Op} : opOfCode c = some op ↔ c = opCode op := by
  revert c
  cases op <;> decide

/-- The reserved opcode number, and only it, names no operation (R65). -/
theorem opOfCode_eq_none {c : BitVec 3} : opOfCode c = none ↔ c.toNat = 7 := by
  revert c
  decide

/-- A `UOP` word has the reserved opcode or is the word of a micro-operation (R62, R65). -/
theorem uop_word_cases (w : BitVec 7) : (w.extractLsb' 4 3).toNat = 7 ∨ ∃ u, w = uopWord u := by
  cases hop : opOfCode (w.extractLsb' 4 3) with
  | none => exact .inl (opOfCode_eq_none.1 hop)
  | some op =>
    refine .inr ⟨⟨op, w.extractLsb' 0 4⟩, ?_⟩
    rw [uopWord, ← opOfCode_eq_some.1 hop, BitVec.extractLsb'_append_extractLsb'_eq_extractLsb' (rfl : 4 = 0 + 4)]
    exact BitVec.extractLsb'_eq_self.symm

/-- The reserved opcode is refused, whatever stands in the low bits (R65). -/
theorem decodeUop_of_reserved {w : BitVec 7} (h : (w.extractLsb' 4 3).toNat = 7) :
    decodeUop w = .error .illegalMicroOperation := by
  rw [decodeUop, opOfCode_eq_none.2 h]

/-- A `UOP` word that decodes is the word of the legal micro-operation it decodes to. -/
theorem decodeUop_eq_ok {w : BitVec 7} {i : Instr} (h : decodeUop w = .ok i) :
    ∃ u, uopLegal u.op u.rnd = true ∧ w = uopWord u ∧ i = uopInstr u := by
  obtain hr | ⟨u, rfl⟩ := uop_word_cases w
  · simp [decodeUop_of_reserved hr] at h
  · rw [decodeUop_uopWord] at h
    split at h
    next hl => exact ⟨u, hl, rfl, (Except.ok.inj h).symm⟩
    next => cases h

/-- The encoder gives a legal micro-operation its `UOP` word (R63). -/
theorem encode_uopInstr {u : Uop} (hl : uopLegal u.op u.rnd = true) : encode (uopInstr u) = .uop (uopWord u) := by
  obtain ⟨op, rnd⟩ := u
  have zero : rnd.toNat = 0 → rnd = 0 := fun e => BitVec.eq_of_toNat_eq e
  cases op with
  | enc => obtain rfl := zero (by simpa [uopLegal] using hl); rfl
  | arki => obtain rfl := zero (by simpa [uopLegal] using hl); rfl
  | fin => obtain rfl := zero (by simpa [uopLegal] using hl); rfl
  | sub => rfl
  | rot => rfl
  | mix => rfl
  | ark => rfl

/-- The encoder writes back the `CMD` word that was decoded: the three fields fill it (R61). -/
theorem encode_decodeCmd (w : BitVec 272) : encode (decodeCmd w) = .cmd w := by
  rw [decodeCmd, encode, packBlock_unpackBlock, packBlock_unpackBlock,
    BitVec.extractLsb'_append_extractLsb'_eq_extractLsb' (rfl : 256 = 128 + 128),
    BitVec.extractLsb'_append_extractLsb'_eq_extractLsb' (rfl : 128 = 0 + 128)]
  exact congrArg CodeWord.cmd BitVec.extractLsb'_eq_self

/-- Settles O1: a micro-operation through its opcode, `START` by its fields. -/
theorem decodeEncodeRoundTrip : Obligations.DecodeEncodeRoundTrip := by
  intro i hw
  by_cases hi : IsMicroOp i
  · obtain ⟨u, rfl, hl⟩ := exists_uop hi hw
    rw [encode_uopInstr hl, decode, decodeUop_uopWord, if_pos hl]
  · cases i with
    | start ks key block => exact congrArg Except.ok (decodeCmd_commandWord ks key block)
    | read n => rfl
    | reserved x => exact nomatch hw
    | _ => exact absurd trivial hi

/-- Settles O2, by the format of the word. -/
theorem decodedWordsAreEncodings : Obligations.DecodedWordsAreEncodings := by
  intro c i h
  cases c with
  | cmd w =>
    obtain rfl : decodeCmd w = i := Except.ok.inj h
    exact ⟨rfl, encode_decodeCmd w⟩
  | uop w =>
    obtain ⟨u, hl, rfl, rfl⟩ := decodeUop_eq_ok h
    exact ⟨wf_uopInstr hl, encode_uopInstr hl⟩
  | rd w =>
    obtain rfl : Instr.read w = i := Except.ok.inj h
    exact ⟨rfl, rfl⟩

/-- The list of R65 says of an operation's words that their `rnd` is not legal for it (R64). -/
theorem illegalUopWord_iff (u : Uop) :
    IllegalUopWord (opCode u.op).toNat u.rnd.toNat ↔ uopLegal u.op u.rnd = false := by
  obtain ⟨op, rnd⟩ := u
  have h := rnd.isLt
  cases op <;> simp [opCode, uopLegal] <;> omega

/-- A `UOP` word is refused exactly when R65 lists it. -/
theorem decodeUop_eq_error_iff (w : BitVec 7) :
    decodeUop w = .error .illegalMicroOperation ↔
      IllegalUopWord (w.extractLsb' 4 3).toNat (w.extractLsb' 0 4).toNat := by
  obtain hr | ⟨u, rfl⟩ := uop_word_cases w
  · exact iff_of_true (decodeUop_of_reserved hr) (.inl hr)
  · rw [uopWord_op, uopWord_rnd, illegalUopWord_iff, decodeUop_uopWord]
    cases uopLegal u.op u.rnd <;> simp

/-- Settles O3: a word that the control store issues decodes, so R65 does not list it. -/
theorem illegalMicroOperationsRefused : Obligations.IllegalMicroOperationsRefused := by
  refine ⟨decodeUop_eq_error_iff, fun nr n u hu hill => ?_⟩
  have herr := (decodeUop_eq_error_iff _).2 hill
  rw [decodeUop_uopWord, if_pos (controlStore_legal hu).1] at herr
  cases herr

/-- Settles O4: each word is what the encoder writes for its instruction. -/
theorem specWordsDecode : Obligations.SpecWordsDecode :=
  ⟨decodeEncodeRoundTrip .enc rfl, decodeEncodeRoundTrip .arki rfl, decodeEncodeRoundTrip (.sub 1) rfl,
    decodeEncodeRoundTrip (.rot 14) rfl, decodeEncodeRoundTrip (.mix 13) rfl,
    decodeEncodeRoundTrip (.ark 10) rfl, decodeEncodeRoundTrip .fin rfl, decodeEncodeRoundTrip (.read 41) rfl,
    decodeEncodeRoundTrip
      (.start 128 (Vector.replicate 16 0) #v[0x41, 0, 0, 0, 0, 0, 0, 0, 0, 0, 0, 0, 0, 0, 0, 0]) rfl⟩

/-- A micro-operation with an illegal operand is refused in every state (R65, log entry 10). -/
theorem microOp_of_illegal {op : Op} {rnd : BitVec 4} (hl : uopLegal op rnd = false)
    (newSt : Except Fault ByteMatrix) (s : State) :
    microOp op rnd newSt s = .refused .illegalMicroOperation := by
  simp [microOp, hl]

/-- `exec` refuses every opcode with an illegal round, before it looks at the state. -/
theorem exec_uopInstr_of_not_wf {u : Uop} (h : (uopInstr u).wf = false) (s : State) :
    exec (uopInstr u) s = .refused .illegalMicroOperation := by
  have hl : uopLegal u.op u.rnd = false :=
    Bool.eq_false_iff.2 fun hl => by simp [wf_uopInstr hl] at h
  obtain ⟨op, rnd⟩ := u
  cases op with
  | enc => exact nomatch h
  | arki => exact nomatch h
  | fin => exact nomatch h
  | sub => exact microOp_of_illegal hl _ s
  | rot => exact microOp_of_illegal hl _ s
  | mix => exact microOp_of_illegal hl _ s
  | ark => exact microOp_of_illegal hl _ s

/-- Settles O31: what is not well formed is the reserved row or an opcode with an illegal round. -/
theorem reservedWordsHaveNoMeaning : Obligations.ReservedWordsHaveNoMeaning := by
  refine ⟨fun _ _ => rfl, fun i s h => ?_⟩
  cases i with
  | reserved x => rfl
  | sub r => exact exec_uopInstr_of_not_wf (u := ⟨.sub, r⟩) h s
  | rot r => exact exec_uopInstr_of_not_wf (u := ⟨.rot, r⟩) h s
  | mix r => exact exec_uopInstr_of_not_wf (u := ⟨.mix, r⟩) h s
  | ark r => exact exec_uopInstr_of_not_wf (u := ⟨.ark, r⟩) h s
  | _ => exact nomatch h

end Sys2Proof.Machine
end

section
/-! PROOFS. The `REC` word: the fields of a record read back from it give the record, and stand where R66
puts them; what the decoder takes is the word of a consistent record. -/

namespace Sys2Proof.Machine

/-- The colour numbers read back to their colours (R67). -/
theorem colourOfCode_colourCode (c : Colour) : colourOfCode (colourCode c) = some c := by
  cases c <;> rfl

/-- A consistent record, clause by clause: its index, round, operand, colour and ciphertext (R64, R67, R68). -/
theorem recordConsistent_iff {r : StepRecord} :
    recordConsistent r = true ↔ r.seq.toNat < Config.trDepth ∧ r.round.isSome = hasRound r.op ∧
      uopLegal r.op (r.round.getD 0) = true ∧ r.col = colour r.op ∧ r.ct.isSome = hasCiphertext r.op := by
  simp [recordConsistent, and_assoc]

/-- Encoding a decoded matrix gives it back (R82). -/
theorem encodeBlock_decodeMatrix (m : ByteMatrix) : encodeBlock (decodeMatrix m) = m := by
  apply matrix_ext
  intro i j hi hj
  have hmod : (i + 4 * j) % 4 = i := by omega
  have hdiv : (i + 4 * j) / 4 = j := by omega
  rw [encodeBlock_cell hi hj, decodeMatrix_byte m (by omega)]
  simp only [hmod, hdiv]

/-- Unpacking a packed matrix gives it back (R44). -/
theorem unpackMatrix_packMatrix (m : ByteMatrix) : unpackMatrix (packMatrix m) = m := by
  rw [unpackMatrix, packMatrix, unpackBlock_packBlock, encodeBlock_decodeMatrix]

/-- The fields of a record's own word, read with its operation and colour, are the record (R66). -/
theorem recordFields_recordWord (r : StepRecord) : recordFields (recordWord r) r.op r.col = r := by
  rw [recordFields, recordWord_seq, recordWord_rv, recordWord_rnd, recordWord_mat, recordWord_cv, recordWord_ct,
    unpackMatrix_packMatrix]
  obtain ⟨seq, op, round, col, mat, ct⟩ := r
  cases round <;> cases ct <;> simp [ciphertextBits]

/-- Settles O5: the checks of the decoder hold of the fields it reads back. -/
theorem recordWordRoundTrip : Obligations.RecordWordRoundTrip := by
  intro r h
  obtain ⟨-, -, hl, -, -⟩ := recordConsistent_iff.1 h
  have hop : opOfCode (opCode r.op) = some r.op := opOfCode_eq_some.2 rfl
  simp only [decodeRecord, recordWord_op, hop, recordWord_rnd, hl, recordWord_col, colourOfCode_colourCode,
    recordFields_recordWord, h, if_true, decide_true, Bool.and_self]

/-- What the decoder takes is the word of the record it gives, and that record is consistent. -/
theorem decodeRecord_eq_ok {w : BitVec 274} {r : StepRecord} (h : decodeRecord w = .ok r) :
    recordConsistent r = true ∧ recordWord r = w := by
  unfold decodeRecord at h
  split at h
  · cases h
  split at h
  · split at h
    · cases h
    split at h
    next hc =>
      obtain rfl := Except.ok.inj h
      simpa using hc
    next => cases h
  · cases h

/-- Presence bits, zero fill and colour of the word of a record that carries what its operation asks (R68). -/
theorem recordWordShape_recordWord {r : StepRecord} (hround : r.round.isSome = hasRound r.op)
    (hcol : r.col = colour r.op) (hct : r.ct.isSome = hasCiphertext r.op) :
    RecordWordShape r.op (recordWord r) := by
  unfold RecordWordShape
  rw [recordWord_rv, recordWord_cv, recordWord_rnd, recordWord_ct, recordWord_col, hcol]
  refine ⟨?_, ?_, fun hr => ?_, fun hc => ?_, rfl⟩
  · rw [hround]
    cases r.op <;> simp [hasRound]
  · simp [hct, hasCiphertext]
  · have hnone : r.round = none := by simpa using hr
    rw [hnone]
    rfl
  · have hnone : r.ct = none := by simpa using hc
    rw [hnone]
    rfl

/-- Byte `n` of a block stands at bits `k+8n+7 : k+8n` of a word that packs the block from bit `k` up. -/
theorem extractLsb'_of_packBlock {l k : Nat} {w : BitVec l} {b : Block}
    (h : w.extractLsb' k 128 = packBlock b) (n : Fin 16) : w.extractLsb' (k + 8 * n.val) 8 = b[n] := by
  rw [← unpackBlock_extractLsb', h, unpackBlock_packBlock]

/-- The fields of any record stand in its word where R66 puts them. -/
theorem recordWordLayout_recordWord (r : StepRecord) : RecordWordLayout r (recordWord r) := by
  refine ⟨recordWord_seq r, recordWord_op r, ?_, fun q hq => ?_, fun i j => ?_, fun b hb => ?_⟩
  · change _ = opCode r.op ++ r.round.getD 0
    rw [← recordWord_op, ← recordWord_rnd,
      BitVec.extractLsb'_append_extractLsb'_eq_extractLsb' (rfl : 265 = 261 + 4)]
  · rw [recordWord_rnd, hq, Option.getD_some]
  · have h := extractLsb'_of_packBlock (recordWord_mat r) ⟨i.val + 4 * j.val, by omega⟩
    rw [← extractLsb'_packBlock, ← packMatrix, extractLsb'_packMatrix, Nat.zero_add] at h
    exact h
  · exact extractLsb'_of_packBlock (by rw [recordWord_ct, hb, ciphertextBits])

/-- Settles O6: hardware's records and the decoder's both carry what their operation asks. -/
theorem recordPresenceBits : Obligations.RecordPresenceBits := by
  refine ⟨fun n op rnd m => ⟨recordWordShape_recordWord ?_ rfl ?_, recordWordLayout_recordWord _⟩, fun w r h => ?_⟩
  · cases op <;> rfl
  · cases op <;> rfl
  · obtain ⟨hc, rfl⟩ := decodeRecord_eq_ok h
    obtain ⟨-, hround, -, hcol, hct⟩ := recordConsistent_iff.1 hc
    exact ⟨recordWordShape_recordWord hround hcol hct, recordWordLayout_recordWord r⟩

end Sys2Proof.Machine
end

section
/-! PROOFS. The codec (R80 to R82), and its two micro-operations, `ENC` and `FIN` (R83, R84): where a legal
micro-operation completes, the state it leaves is `afterMicroOp`. -/

namespace Sys2Proof.Machine

variable {s : State}

/-- Decoding an encoded block gives it back (R82). -/
theorem decodeMatrix_encodeBlock (b : Block) : decodeMatrix (encodeBlock b) = b := by
  apply block_ext
  intro n hn
  have hcell : n % 4 + 4 * (n / 4) = n := Nat.mod_add_div n 4
  rw [decodeMatrix_byte _ hn, encodeBlock_cell (by omega) (by omega)]
  simp only [hcell]

/-- Settles O7: the cells of both functions and the two inverses; byte `n` is encoded to the cell that the
decoder reads it from. -/
theorem codecIsColumnMajorAndInverse : Obligations.CodecIsColumnMajorAndInverse := by
  refine ⟨fun b n => ?_, fun b i j => encodeBlock_cell i.isLt j.isLt b, fun m n => decodeMatrix_byte m n.isLt,
    decodeMatrix_encodeBlock, encodeBlock_decodeMatrix⟩
  rw [← decodeMatrix_byte (encodeBlock b) n.isLt, decodeMatrix_encodeBlock, Fin.getElem_fin]

/-- While BUSY with an entry of `TR` left, a legal micro-operation completes with its new matrix (R131). -/
theorem exec_uopInstr_of_ok {u : Uop} {m : ByteMatrix} (hl : uopLegal u.op u.rnd = true) (hb : s.ph = .busy)
    (hs : s.seq.toNat < Config.trDepth) (hm : newMatrix u s = .ok m) :
    exec (uopInstr u) s = .next (afterMicroOp u.op u.rnd m s) := by
  rw [exec_uopInstr hl]
  exact microOp_next_iff.2 ⟨hl, hb, hs, m, hm, rfl⟩

/-- The record of a committed micro-operation is at the old `SEQ` (R131). -/
theorem afterMicroOp_read_seq (op : Op) (rnd : BitVec 4) (m : ByteMatrix) (s : State) :
    (afterMicroOp op rnd m s).tr.read s.seq.toNat = some (makeRecord s.seq op rnd m) :=
  Memory.read_write_same _ _ _

/-- `ENC` commits the encoded block (R83). -/
theorem exec_enc_of_blk {b : Block} (hb : s.ph = .busy) (hs : s.seq.toNat < Config.trDepth)
    (hblk : s.blk = some b) : exec .enc s = .next (afterMicroOp .enc 0 (encodeBlock b) s) :=
  exec_uopInstr_of_ok (u := ⟨.enc, 0⟩) rfl hb hs (encodedBlk_eq_ok.2 ⟨b, hblk, rfl⟩)

/-- `FIN` commits the matrix that `ST` holds (R84). -/
theorem exec_fin_of_st {m : ByteMatrix} (hb : s.ph = .busy) (hs : s.seq.toNat < Config.trDepth)
    (hst : s.st = some m) : exec .fin s = .next (afterMicroOp .fin 0 m s) :=
  exec_uopInstr_of_ok (u := ⟨.fin, 0⟩) rfl hb hs (readSt_eq_ok.2 hst)

/-- Settles O18: the state is that of `ENC`'s commit, and the control store issues `ENC` at its first step. -/
theorem encLoadsTheBlock : Obligations.EncLoadsTheBlock := by
  intro s b hb hs hblk
  exact ⟨rfl, fun _ _ _ hu => (controlStore_ends hu).2.1,
    _, encodeBlock b, exec_enc_of_blk hb hs hblk, fun i j => encodeBlock_cell i.isLt j.isLt b,
    rfl, toNat_seq_succ hs, hb, afterMicroOp_read_seq .enc 0 _ s, microOpKeeps_afterMicroOp .enc 0 _ s⟩

/-- Settles O24: the state is that of `FIN`'s commit, and the control store issues `FIN` at its last step. -/
theorem finEmitsTheCiphertext : Obligations.FinEmitsTheCiphertext := by
  intro s m hb hs hst
  exact ⟨rfl, fun _ _ _ hu => (controlStore_ends hu).1.1,
    _, m, exec_fin_of_st hb hs hst, rfl, rfl, rfl, rfl,
    rfl, toNat_seq_succ hs, rfl, afterMicroOp_read_seq .fin 0 m s, microOpKeeps_afterMicroOp .fin 0 m s⟩

end Sys2Proof.Machine
end

section
/-! PROOFS. The checks on the substitution table that R91 asks for. What a bijective table gives is proved for
every configuration with the named property (R92); what depends on the 256 literals is, as R91 says, made by
evaluation, one byte after the other. -/

namespace Sys2Proof

/-- The entries of a table with the named property are, in some order, the numbers below 256. -/
theorem Config.SboxBijective.perm_range {c : Config} (h : c.SboxBijective) :
    (c.sbox.toList.map BitVec.toNat).Perm (List.range 256) := by
  have hnodup : (c.sbox.toList.map BitVec.toNat).Nodup := h.map fun _ _ => BitVec.eq_of_toNat_eq
  have hsub : c.sbox.toList.map BitVec.toNat ⊆ List.range 256 := by
    intro n hn
    obtain ⟨b, -, rfl⟩ := List.mem_map.1 hn
    exact List.mem_range.2 b.isLt
  exact (hnodup.subperm hsub).perm_of_length_le (by simp)

/-- The sum of R91 (c), which no permutation of the bytes changes. -/
theorem Config.SboxBijective.sum_toNat {c : Config} (h : c.SboxBijective) :
    (c.sbox.toList.map BitVec.toNat).sum = 32640 := by
  rw [h.perm_range.sum_eq]
  decide +kernel

namespace Machine

/-- R91 (b), entry by entry. -/
theorem sboxRead_standard_ne : ∀ x : Byte, sboxRead Config.standard x ≠ x := by decide +kernel

/-- Settles O11: injectivity and the sum hold for every bijective table, and the table of R90 is one; that no
byte is fixed is evaluated. -/
theorem substitutionIsInjectiveWithoutFixedPoint : Obligations.SubstitutionIsInjectiveWithoutFixedPoint :=
  have hbij := Config.standard_sboxBijective
  ⟨fun _ _ hxy => hbij.bijective.injective hxy, sboxRead_standard_ne, hbij.sum_toNat⟩

/-- The addition chain of `gfInv` gives the multiplicative inverse (R91 (d)): the product is 1 at each of the
255 bytes but 0. -/
theorem gfMul_gfInv : ∀ x : Byte, x ≠ 0 → gfMul x (gfInv x) = 1 := by decide +kernel

/-- R91 (d), entry by entry. -/
theorem sboxRead_standard_eq_affine : ∀ x : Byte, sboxRead Config.standard x = sboxAffine (gfInv x) := by
  decide +kernel

/-- Settles O57, one evaluation over the bytes for the product and one for the table. -/
theorem tableIsTheClosedForm : Obligations.TableIsTheClosedForm :=
  ⟨by decide, gfMul_gfInv, sboxRead_standard_eq_affine⟩

end Machine
end Sys2Proof
end

section
/-! PROOFS. The key schedule: the cells of a round key as integers (R95, R96), the difference of consecutive
round keys (R100 (b)) and the list that `generate` gives (R97). -/

namespace Sys2Proof.Machine

/-- A round key's cell on integers (R95), for every round: the sum wraps modulo 256. -/
theorem toNat_roundKey_cell {i j : Nat} (hi : i < 4) (hj : j < 4) (k : ByteMatrix) (r : Nat) :
    ((roundKey k r)[i][j]).toNat = (k[i][j].toNat + r * 16 + i * 4 + j) % 256 := by
  rw [roundKey_cell hi hj, BitVec.toNat_add, BitVec.toNat_ofNat, Nat.add_mod_mod]
  simp only [Nat.add_assoc]

/-- R100 (b), for every key matrix: the round enters a cell only through the offset `16 r`. -/
theorem roundKey_succ_cell {i j : Nat} (hi : i < 4) (hj : j < 4) (k : ByteMatrix) (r : Nat) :
    (roundKey k (r + 1))[i][j] = (roundKey k r)[i][j] + 16 := by
  have hoffset : (r + 1) * 16 + i * 4 + j = r * 16 + i * 4 + j + 16 := by omega
  rw [roundKey_cell hi hj, roundKey_cell hi hj, hoffset, BitVec.ofNat_add, BitVec.add_assoc,
    BitVec.ofNat_eq_ofNat]

@[simp] theorem length_generate (key : Block) (nr : Nat) : (generate key nr).length = nr + 1 := by
  simp [generate]

theorem getElem?_generate {nr r : Nat} (hr : r ≤ nr) (key : Block) :
    (generate key nr)[r]? = some (roundKey (encodeBlock key) r) := by
  rw [generate, List.getElem?_map, List.getElem?_range (Nat.lt_succ_of_le hr), Option.map_some]

/-- Settles O8. -/
theorem roundKeyIdentity : Obligations.RoundKeyIdentity :=
  fun k r i j _ => toNat_roundKey_cell i.isLt j.isLt k r

/-- Settles O9: the cell `(i, j)` of the encoded key is byte `i + 4j` (R80), and R100 (b) holds for any key matrix. -/
theorem roundKeyFromKeyBytes : Obligations.RoundKeyFromKeyBytes := by
  intro key r i j _
  refine ⟨?_, roundKey_succ_cell i.isLt j.isLt (encodeBlock key) r⟩
  have hcell := toNat_roundKey_cell i.isLt j.isLt (encodeBlock key) r
  rw [encodeBlock_cell i.isLt j.isLt, Nat.mul_comm r, Nat.mul_comm i.val 4] at hcell
  exact hcell

/-- Settles O10. -/
theorem generateListsTheRoundKeys : Obligations.GenerateListsTheRoundKeys :=
  fun key nr => ⟨length_generate key nr, fun _ hr => getElem?_generate hr key⟩

end Sys2Proof.Machine
end

section
/-! PROOFS. The four round transforms as functions on matrices, cell by cell: what each does (R106, R108, R110,
R113) and the laws that follow (R107, R109, R111, R112, R114). -/

namespace Sys2Proof

/-- A matrix is recovered from its substitution, as each byte is (R107). -/
theorem Config.SboxBijective.byteSubstitution_injective {c : Config} (h : c.SboxBijective) :
    Function.Injective (Machine.byteSubstitution c) := by
  intro m m' e
  apply Machine.matrix_ext
  intro i j hi hj
  apply h.bijective.injective
  rw [← Machine.byteSubstitution_cell hi hj, e, Machine.byteSubstitution_cell hi hj]

/-- Every matrix is a substitution: of the matrix of its bytes' preimages (R107). -/
theorem Config.SboxBijective.byteSubstitution_surjective {c : Config} (h : c.SboxBijective) :
    Function.Surjective (Machine.byteSubstitution c) := by
  intro m
  obtain ⟨preimage, hpre⟩ := h.bijective.surjective.hasRightInverse
  refine ⟨m.map (Vector.map preimage), Machine.matrix_ext fun i j hi hj => ?_⟩
  rw [Machine.byteSubstitution_cell hi hj, Vector.getElem_map, Vector.getElem_map, hpre]

namespace Machine

/-- Settles O12: the bijection on bytes, taken to every cell; and the table's entry at 0. -/
theorem byteSubstitutionIsBijective : Obligations.ByteSubstitutionIsBijective := by
  refine ⟨fun _ h => ⟨h.byteSubstitution_injective, h.byteSubstitution_surjective⟩, fun m i j hzero => ?_⟩
  have hentry : sboxRead Config.standard 0 = 0x63 := by decide
  exact (byteSubstitution_cell i.isLt j.isLt Config.standard m).trans
    ((congrArg (sboxRead Config.standard) (hzero i j)).trans hentry)

/-- Settles O13: the column `(c - r) mod 4` takes its entry from column `c`. -/
theorem rowRotationRotatesLeft : Obligations.RowRotationRotatesLeft := by
  intro m r c
  refine ⟨rowRotation_cell r.isLt c.isLt m, ?_⟩
  have hsource : ((c.val + 4 - r.val) % 4 + r.val) % 4 = c.val := by omega
  refine (rowRotation_cell r.isLt (Nat.mod_lt _ (by decide)) m).trans ?_
  simp only [hsource, Fin.getElem_fin]

/-- `k` rotations turn row `i` left by `k * i` (R109 (a)). -/
theorem rowRotation_iterate_cell {i j : Nat} (hi : i < 4) (hj : j < 4) (m : ByteMatrix) (k : Nat) :
    (rowRotation^[k] m)[i][j] = m[i][(j + k * i) % 4]'(Nat.mod_lt _ (by decide)) := by
  induction k generalizing j with
  | zero => simp [Nat.mod_eq_of_lt hj]
  | succ k ih =>
    have hcolumn : ((j + i) % 4 + k * i) % 4 = (j + (k + 1) * i) % 4 := by
      rw [Nat.mod_add_mod, Nat.succ_mul, Nat.add_comm (k * i), Nat.add_assoc]
    simp only [Function.iterate_succ_apply', rowRotation_cell hi hj, ih (Nat.mod_lt _ (by decide)), hcolumn]

theorem rowRotation_iterate_four (m : ByteMatrix) : rowRotation^[4] m = m := by
  apply matrix_ext
  intro i j hi hj
  have hcolumn : (j + 4 * i) % 4 = j := by omega
  simp only [rowRotation_iterate_cell hi hj, hcolumn]

/-- Byte `i + 4j` of a decoded matrix is its cell `(i, j)` (R81). -/
theorem decodeMatrix_byte_of_cell {i j : Nat} (hi : i < 4) (hj : j < 4) (m : ByteMatrix) :
    (decodeMatrix m)[i + 4 * j] = m[i][j] := by
  rw [← encodeBlock_cell hi hj, encodeBlock_decodeMatrix]

/-- Settles O14: the row turns by 0 modulo 4, and the byte positions are those of the cells. -/
theorem rowRotationFourTimesIsIdentity : Obligations.RowRotationFourTimesIsIdentity := by
  refine ⟨rowRotation_iterate_four, fun m r c => ?_⟩
  rw [decodeMatrix_byte_of_cell r.isLt c.isLt, decodeMatrix_byte_of_cell r.isLt (Nat.mod_lt _ (by decide)),
    rowRotation_cell r.isLt c.isLt]

/-- The collapse of R112: from whichever row the source starts, the four terms are the column's cells. -/
theorem columnMix_cell_eq_xor {i j : Nat} (hi : i < 4) (hj : j < 4) (m : ByteMatrix) :
    (columnMix m)[i][j] = m[0][j] ^^^ m[1][j] ^^^ m[2][j] ^^^ m[3][j] := by
  rw [columnMix_cell hi hj]
  interval_cases i
  · rfl
  · show m[1][j] ^^^ m[2][j] ^^^ m[3][j] ^^^ m[0][j] = _
    ac_rfl
  · show m[2][j] ^^^ m[3][j] ^^^ m[0][j] ^^^ m[1][j] = _
    ac_rfl
  · show m[3][j] ^^^ m[0][j] ^^^ m[1][j] ^^^ m[2][j] = _
    ac_rfl

/-- Settles O15. -/
theorem columnMixCollapses : Obligations.ColumnMixCollapses :=
  fun m r c => columnMix_cell_eq_xor r.isLt c.isLt m

/-- Four equal rows cancel (R111 (b)). -/
theorem columnMix_columnMix_cell {i j : Nat} (hi : i < 4) (hj : j < 4) (m : ByteMatrix) :
    (columnMix (columnMix m))[i][j] = 0 := by
  have hrow : ∀ k (hk : k < 4), (columnMix m)[k][j] = (columnMix m)[0][j] := fun k hk => by
    rw [columnMix_cell_eq_xor hk hj, columnMix_cell_eq_xor (by decide) hj]
  rw [columnMix_cell_eq_xor hi hj, hrow 1 (by decide), hrow 2 (by decide), hrow 3 (by decide),
    BitVec.xor_self, BitVec.zero_xor, BitVec.xor_self]
  rfl

/-- Settles O16: the zero matrix and the matrix of ones, four to a column, both go to zero. -/
theorem columnMixTwiceIsZero : Obligations.ColumnMixTwiceIsZero :=
  ⟨fun m r c => columnMix_columnMix_cell r.isLt c.isLt m,
    Vector.replicate 4 (Vector.replicate 4 0), Vector.replicate 4 (Vector.replicate 4 1),
    by decide, by decide⟩

theorem keyXor_comm (m k : ByteMatrix) : keyXor m k = keyXor k m :=
  matrix_ext fun i j hi hj => by rw [keyXor_cell hi hj, keyXor_cell hi hj, BitVec.xor_comm]

theorem keyXor_self (m : ByteMatrix) : keyXor m m = Vector.replicate 4 (Vector.replicate 4 0) :=
  matrix_ext fun i j hi hj => by
    rw [keyXor_cell hi hj, BitVec.xor_self, Vector.getElem_replicate, Vector.getElem_replicate]; rfl

theorem keyXor_zero (m : ByteMatrix) : keyXor m (Vector.replicate 4 (Vector.replicate 4 0)) = m :=
  matrix_ext fun i j hi hj => by
    rw [keyXor_cell hi hj, Vector.getElem_replicate, Vector.getElem_replicate]; exact BitVec.xor_zero

/-- A key XORed a second time is undone (R114). -/
theorem involutive_keyXor (k : ByteMatrix) : Function.Involutive fun m => keyXor m k := fun m =>
  matrix_ext fun i j hi hj => by
    rw [keyXor_cell hi hj, keyXor_cell hi hj, BitVec.xor_assoc, BitVec.xor_self, BitVec.xor_zero]

/-- Settles O17: a function that undoes itself is a bijection. -/
theorem keyXorLaws : Obligations.KeyXorLaws := fun m k =>
  ⟨involutive_keyXor k m, keyXor_zero m, keyXor_self m, keyXor_comm m k, (involutive_keyXor k).bijective⟩

end Machine
end Sys2Proof
end

section
/-! PROOFS. The micro-operations of the round transforms (R115 to R119): each completes with its transform of
`ST`, and what it leaves is what every micro-operation but `FIN` leaves (R131). -/

namespace Sys2Proof.Machine

variable {s : State} {m : ByteMatrix}

/-- What a micro-operation but `FIN` leaves: `ST`, `SEQ`, the record at the old `SEQ`, and the rest as it was. -/
theorem afterMicroOp_writes {op : Op} (hop : op ≠ .fin) (hb : s.ph = .busy) (hs : s.seq.toNat < Config.trDepth)
    (rnd : BitVec 4) (m : ByteMatrix) :
    (afterMicroOp op rnd m s).st = some m ∧ (afterMicroOp op rnd m s).seq.toNat = s.seq.toNat + 1 ∧
      (afterMicroOp op rnd m s).ph = .busy ∧
      (afterMicroOp op rnd m s).tr.read s.seq.toNat = some (makeRecord s.seq op rnd m) ∧
      MicroOpKeeps s (afterMicroOp op rnd m s) :=
  ⟨rfl, toNat_seq_succ hs, (if_neg hop).trans hb, afterMicroOp_read_seq op rnd m s,
    microOpKeeps_afterMicroOp op rnd m s⟩

/-- `ARKI` is issued at the second step and nowhere else; `MIX` never in the final round (R129). -/
theorem controlStore_arki_mix {nr n : Nat} {u : Uop} (h : controlStore nr n = some u) :
    (u.op = .arki ↔ n = 1) ∧ (u.op = .mix → u.rnd.toNat < nr) := by
  obtain ⟨hnr, hn⟩ := (controlStore_isSome nr n).1 (by simp [h])
  have all : ∀ nr ∈ [10, 12, 14], ∀ n < 58, ∀ u ∈ controlStore nr n,
      (u.op = .arki ↔ n = 1) ∧ (u.op = .mix → u.rnd.toNat < nr) := by decide
  exact all nr (by simpa using hnr) n (by omega) u h

/-- `ARK` is issued with a round of the invocation only (R119, R129). -/
theorem controlStore_ark {nr n : Nat} {u : Uop} (h : controlStore nr n = some u) (hop : u.op = .ark) :
    1 ≤ u.rnd.toNat ∧ u.rnd.toNat ≤ nr := by
  obtain ⟨hl, hr⟩ := controlStore_legal h
  rw [hop] at hl
  exact ⟨(of_decide_eq_true hl).1, hr⟩

/-- `SUB r` commits the substitution of `ST` by the configuration's table (R115). -/
theorem execSubWith_of_st {r : BitVec 4} (hl : uopLegal .sub r = true) (hb : s.ph = .busy)
    (hs : s.seq.toNat < Config.trDepth) (hst : s.st = some m) (c : Config) :
    execSubWith c r s = .next (afterMicroOp .sub r (byteSubstitution c m) s) :=
  microOp_next_iff.2 ⟨hl, hb, hs, _, transformSt_eq_ok.2 ⟨m, hst, rfl⟩, rfl⟩

/-- `ROT r` commits the rotation of `ST` (R116). -/
theorem exec_rot_of_st {r : BitVec 4} (hl : uopLegal .rot r = true) (hb : s.ph = .busy)
    (hs : s.seq.toNat < Config.trDepth) (hst : s.st = some m) :
    exec (.rot r) s = .next (afterMicroOp .rot r (rowRotation m) s) :=
  exec_uopInstr_of_ok (u := ⟨.rot, r⟩) hl hb hs (transformSt_eq_ok.2 ⟨m, hst, rfl⟩)

/-- `MIX r` commits the mix of `ST` (R117). -/
theorem exec_mix_of_st {r : BitVec 4} (hl : uopLegal .mix r = true) (hb : s.ph = .busy)
    (hs : s.seq.toNat < Config.trDepth) (hst : s.st = some m) :
    exec (.mix r) s = .next (afterMicroOp .mix r (columnMix m) s) :=
  exec_uopInstr_of_ok (u := ⟨.mix, r⟩) hl hb hs (transformSt_eq_ok.2 ⟨m, hst, rfl⟩)

/-- `ARKI` commits `ST` with round key 0 added (R118). -/
theorem exec_arki_of_key {k : ByteMatrix} (hb : s.ph = .busy) (hs : s.seq.toNat < Config.trDepth)
    (hst : s.st = some m) (hk : s.rk.read 0 = some k) :
    exec .arki s = .next (afterMicroOp .arki 0 (keyXor m k) s) :=
  exec_uopInstr_of_ok (u := ⟨.arki, 0⟩) rfl hb hs
    (xorRoundKey_eq_ok.2 ⟨m, k, hst, Nat.zero_le _, hk, rfl⟩)

/-- `ARK r` commits `ST` with round key `r` added (R119). -/
theorem exec_ark_of_key {r : BitVec 4} {k : ByteMatrix} (hl : uopLegal .ark r = true) (hb : s.ph = .busy)
    (hs : s.seq.toNat < Config.trDepth) (hst : s.st = some m) (hr : r.toNat ≤ s.nr.toNat)
    (hk : s.rk.read r.toNat = some k) : exec (.ark r) s = .next (afterMicroOp .ark r (keyXor m k) s) :=
  exec_uopInstr_of_ok (u := ⟨.ark, r⟩) hl hb hs (xorRoundKey_eq_ok.2 ⟨m, k, hst, hr, hk, rfl⟩)

/-- Settles O19: the state is that of `ARKI`'s commit. -/
theorem arkiAddsRoundKeyZero : Obligations.ArkiAddsRoundKeyZero := by
  intro s m k hb hs hst hk
  exact ⟨rfl, fun _ _ _ hu => (controlStore_arki_mix hu).1.1, _, keyXor m k, exec_arki_of_key hb hs hst hk,
    fun i j => keyXor_cell i.isLt j.isLt m k, afterMicroOp_writes (by decide) hb hs 0 _⟩

/-- Settles O20: the state is that of `SUB`'s commit; `r` is in the record alone. -/
theorem subSubstitutesEveryByte : Obligations.SubSubstitutesEveryByte := by
  intro c r s m h1 h14 hb hs hst
  have hl : uopLegal .sub r = true := decide_eq_true ⟨h1, h14⟩
  exact ⟨rfl, rfl, _, byteSubstitution c m, execSubWith_of_st hl hb hs hst c,
    fun i j => byteSubstitution_cell i.isLt j.isLt c m, afterMicroOp_writes (by decide) hb hs r _⟩

/-- Settles O21: the state is that of `ROT`'s commit; `r` is in the record alone. -/
theorem rotRotatesEveryRow : Obligations.RotRotatesEveryRow := by
  intro r s m h1 h14 hb hs hst
  have hl : uopLegal .rot r = true := decide_eq_true ⟨h1, h14⟩
  exact ⟨rfl, _, rowRotation m, exec_rot_of_st hl hb hs hst,
    fun i c => rowRotation_cell i.isLt c.isLt m, afterMicroOp_writes (by decide) hb hs r _⟩

/-- Settles O22: the state is that of `MIX`'s commit, with the collapse of R112. -/
theorem mixCollapsesEveryColumn : Obligations.MixCollapsesEveryColumn := by
  intro r s m h1 h13 hb hs hst
  have hl : uopLegal .mix r = true := decide_eq_true ⟨h1, h13⟩
  exact ⟨rfl, fun _ _ _ hu => (controlStore_arki_mix hu).2, _, columnMix m, exec_mix_of_st hl hb hs hst,
    columnMixCollapses m, afterMicroOp_writes (by decide) hb hs r _⟩

/-- Settles O23: the state is that of `ARK`'s commit, whose round is label and index. -/
theorem arkAddsItsRoundKey : Obligations.ArkAddsItsRoundKey := by
  intro r s m k h1 h14 hr hb hs hst hk
  have hl : uopLegal .ark r = true := decide_eq_true ⟨h1, h14⟩
  exact ⟨rfl, fun _ _ _ hu => controlStore_ark hu, _, keyXor m k, exec_ark_of_key hl hb hs hst hr hk,
    fun i j => keyXor_cell i.isLt j.isLt m k, afterMicroOp_writes (by decide) hb hs r _⟩

end Sys2Proof.Machine
end

section
/-! PROOFS. The control store is the program of R71 (R129, R130). -/

namespace Sys2Proof.Machine

/-- The micro-operations of main round `q` (R71). -/
def roundUops (q : Nat) : List Uop :=
  [⟨.sub, BitVec.ofNat 4 q⟩, ⟨.rot, BitVec.ofNat 4 q⟩, ⟨.mix, BitVec.ofNat 4 q⟩, ⟨.ark, BitVec.ofNat 4 q⟩]

/-- The micro-operations of the final round, which has no `MIX` (R71). -/
def finalRoundUops (nr : Nat) : List Uop :=
  [⟨.sub, BitVec.ofNat 4 nr⟩, ⟨.rot, BitVec.ofNat 4 nr⟩, ⟨.ark, BitVec.ofNat 4 nr⟩]

/-- `PROGRAM nr` as micro-operations (R71). -/
def programUops (nr : Nat) : List Uop :=
  [⟨.enc, 0⟩, ⟨.arki, 0⟩] ++ (List.range (nr - 1)).flatMap (fun q => roundUops (q + 1)) ++
    finalRoundUops nr ++ [⟨.fin, 0⟩]

theorem map_uopInstr_programUops (nr : Nat) : (programUops nr).map uopInstr = program nr := by
  simp [programUops, program, roundUops, roundProgram, finalRoundUops, finalRoundProgram, uopInstr,
    List.map_flatMap]

theorem length_programUops {nr : Nat} (h : LegalRounds nr) : (programUops nr).length = 4 * nr + 2 := by
  obtain rfl | rfl | rfl := h <;> rfl

/-- The control store lists the program (R129, R130). -/
theorem filterMap_controlStore {nr : Nat} (h : LegalRounds nr) :
    (List.range (4 * nr + 2)).filterMap (controlStore nr) = programUops nr := by
  obtain rfl | rfl | rfl := h <;> decide

/-- What the control store issues, it issues inside its domain (R129). -/
theorem controlStore_domain {nr n : Nat} {u : Uop} (h : controlStore nr n = some u) :
    LegalRounds nr ∧ n ≤ 4 * nr + 1 :=
  (controlStore_isSome nr n).1 (Option.isSome_of_eq_some h)

/-- Inside its domain the control store issues a micro-operation (R129). -/
theorem exists_controlStore {nr n : Nat} (hnr : LegalRounds nr) (hn : n < 4 * nr + 2) :
    ∃ u, controlStore nr n = some u :=
  Option.isSome_iff_exists.1 ((controlStore_isSome nr n).2 ⟨hnr, Nat.lt_succ_iff.1 hn⟩)

theorem controlStore_of_gt {nr n : Nat} (h : 4 * nr + 1 < n) : controlStore nr n = none :=
  Option.eq_none_iff_forall_ne_some.2 fun _ hu => absurd (controlStore_domain hu).2 (Nat.not_le.2 h)

theorem controlStore_of_not_legalRounds {nr : Nat} (h : ¬ LegalRounds nr) (n : Nat) : controlStore nr n = none :=
  if_neg h

/-- Word `n` of the control store is micro-operation `n` of the program, and there is none past its end. -/
theorem controlStore_eq_getElem? {nr : Nat} (h : LegalRounds nr) (n : Nat) :
    controlStore nr n = (programUops nr)[n]? := by
  by_cases hn : n < 58
  · have all : ∀ nr ∈ [10, 12, 14], ∀ n < 58, controlStore nr n = (programUops nr)[n]? := by decide
    exact all nr (by simpa using h) n hn
  · rw [controlStore_of_gt (by omega), List.getElem?_eq_none (by rw [length_programUops h]; omega)]

theorem map_encode_program {nr : Nat} (h : LegalRounds nr) :
    (program nr).map encode = (programUops nr).map fun u => .uop (uopWord u) := by
  rw [← map_uopInstr_programUops, List.map_map]
  refine List.map_congr_left fun u hu => encode_uopInstr ?_
  obtain ⟨n, hn⟩ := List.mem_iff_getElem?.1 hu
  exact (controlStore_legal ((controlStore_eq_getElem? h n).trans hn)).1

/-- Settles O49: the listed words are the program's, and the counts are the program's. -/
theorem controlStoreIsTheProgram : Obligations.ControlStoreIsTheProgram := by
  refine ⟨fun nr hmem => ?_, fun _ _ => controlStore_of_gt, fun _ n hnr => controlStore_of_not_legalRounds hnr n⟩
  have hnr : LegalRounds nr := by simpa using hmem
  rw [filterMap_controlStore hnr]
  refine ⟨map_encode_program hnr, ?_⟩
  obtain rfl | rfl | rfl := hnr <;> decide

/-- Settles O50, word by word. -/
theorem controlStoreCommonPrefix : Obligations.ControlStoreCommonPrefix := by
  unfold Obligations.ControlStoreCommonPrefix
  decide

end Sys2Proof.Machine
end

section
/-! PROOFS. `BuildTrace` (R134) read as a run over the program's micro-operations: record `n` is the one that
micro-operation `n` makes of its matrix. -/

namespace Sys2Proof.Machine

variable (c : Config) (block key : Block)

/-- The matrix a micro-operation makes of the State Matrix, of the invocation's block and of its round keys (R131). -/
def pureMatrix (u : Uop) (m : ByteMatrix) : ByteMatrix :=
  match u.op with
  | .enc => encodeBlock block
  | .arki => keyXor m (roundKey (encodeBlock key) 0)
  | .sub => byteSubstitution c m
  | .rot => rowRotation m
  | .mix => columnMix m
  | .ark => keyXor m (roundKey (encodeBlock key) u.rnd.toNat)
  | .fin => m

/-- The builder after one more micro-operation. -/
def Builder.emitUop (b : Builder) (u : Uop) : Builder :=
  { n := b.n + 1
    st := pureMatrix c block key u b.st
    records := b.records ++ [makeRecord (BitVec.ofNat 6 b.n) u.op u.rnd (pureMatrix c block key u b.st)] }

/-- The builder after a list of micro-operations. -/
def Builder.run (us : List Uop) : Builder :=
  us.foldl (Builder.emitUop c block key) { n := 0, st := encodeBlock block, records := [] }

/-- The State Matrix after the first `n` micro-operations of an invocation (R134). -/
def snapshot (nr n : Nat) : ByteMatrix := (Builder.run c block key ((programUops nr).take n)).st

/-- A main round of the source's state machine is its four micro-operations. -/
theorem mainRound_eq_foldl {q : Nat} (hq : q < 16) (b : Builder) :
    Builder.mainRound c key b q = (roundUops q).foldl (Builder.emitUop c block key) b := by
  have hkey : (BitVec.ofNat 4 q).toNat = q := Nat.mod_eq_of_lt hq
  simp only [roundUops, List.foldl_cons, List.foldl_nil, Builder.emitUop, pureMatrix, hkey]
  rfl

/-- The final round of the source's state machine is its three micro-operations. -/
theorem finalRound_eq_foldl {nr : Nat} (hnr : nr < 16) (b : Builder) :
    Builder.finalRound c key nr b = (finalRoundUops nr).foldl (Builder.emitUop c block key) b := by
  have hkey : (BitVec.ofNat 4 nr).toNat = nr := Nat.mod_eq_of_lt hnr
  simp only [finalRoundUops, List.foldl_cons, List.foldl_nil, Builder.emitUop, pureMatrix, hkey]
  rfl

/-- `BuildTrace` is the run over the program: both descriptions of an invocation meet here (R129, R134). -/
theorem traceOfRounds_eq_run {nr : Nat} (hnr : LegalRounds nr) :
    traceOfRounds c block key nr = (Builder.run c block key (programUops nr)).records := by
  have hrounds : ∀ b : Builder, (List.range (nr - 1)).foldl (fun b q => Builder.mainRound c key b (q + 1)) b =
      ((List.range (nr - 1)).flatMap fun q => roundUops (q + 1)).foldl (Builder.emitUop c block key) b := by
    intro b
    rw [List.foldl_flatMap]
    refine List.foldl_ext _ _ b fun b q hq => mainRound_eq_foldl c block key ?_ b
    rw [List.mem_range] at hq
    omega
  rw [traceOfRounds, hrounds, finalRound_eq_foldl c block key (by omega), Builder.run, programUops,
    List.foldl_append, List.foldl_append, List.foldl_append]
  rfl

theorem run_append_singleton (us : List Uop) (u : Uop) :
    Builder.run c block key (us ++ [u]) = (Builder.run c block key us).emitUop c block key u := by
  simp [Builder.run]

@[simp] theorem run_n (us : List Uop) : (Builder.run c block key us).n = us.length := by
  induction us using List.reverseRecOn with
  | nil => rfl
  | append_singleton us u ih => simp [run_append_singleton, Builder.emitUop, ih]

@[simp] theorem length_run_records (us : List Uop) : (Builder.run c block key us).records.length = us.length := by
  induction us using List.reverseRecOn with
  | nil => rfl
  | append_singleton us u ih => simp [run_append_singleton, Builder.emitUop, ih]

/-- Record `n` of a run is the one its micro-operation `n` makes of the matrix then in the builder; no later
micro-operation changes it. -/
theorem getElem?_run_records (us : List Uop) (n : Nat) :
    (Builder.run c block key us).records[n]? = us[n]?.map fun u =>
      makeRecord (BitVec.ofNat 6 n) u.op u.rnd (Builder.run c block key (us.take (n + 1))).st := by
  induction us using List.reverseRecOn with
  | nil => rfl
  | append_singleton us u ih =>
    obtain hn | rfl | hn := Nat.lt_trichotomy n us.length
    · rw [run_append_singleton, Builder.emitUop, List.getElem?_append_left (by simpa using hn), ih,
        List.getElem?_append_left hn, List.take_append_of_le_length hn]
    · rw [List.take_of_length_le (by simp), run_append_singleton, Builder.emitUop]
      simp
    · rw [List.getElem?_eq_none (by simpa using hn), List.getElem?_eq_none (by simpa using hn), Option.map_none]

/-- Record `n` of `BuildTrace` is the control store's step `n` on the snapshot after it (R134, R152). -/
theorem getElem?_traceOfRounds {nr : Nat} (hnr : LegalRounds nr) (n : Nat) :
    (traceOfRounds c block key nr)[n]? = (controlStore nr n).map fun u =>
      makeRecord (BitVec.ofNat 6 n) u.op u.rnd (snapshot c block key nr (n + 1)) := by
  rw [traceOfRounds_eq_run c block key hnr, getElem?_run_records, controlStore_eq_getElem? hnr]
  rfl

/-- Each snapshot is made of the one before by the control store's micro-operation. -/
theorem snapshot_succ {nr n : Nat} {u : Uop} (hnr : LegalRounds nr) (hu : controlStore nr n = some u) :
    snapshot c block key nr (n + 1) = pureMatrix c block key u (snapshot c block key nr n) := by
  rw [controlStore_eq_getElem? hnr] at hu
  rw [snapshot, List.take_add_one, hu, Option.toList_some, run_append_singleton]
  rfl

theorem length_traceOfRounds {nr : Nat} (hnr : LegalRounds nr) :
    (traceOfRounds c block key nr).length = 4 * nr + 2 := by
  rw [traceOfRounds_eq_run c block key hnr, length_run_records, length_programUops hnr]

/-- Settles O51: record `n` is that of the control store's step `n`. -/
theorem builtTraceShape : Obligations.BuiltTraceShape := by
  intro c block key nr hnr
  refine ⟨length_traceOfRounds c block key hnr, fun n rec hrec => ?_⟩
  rw [getElem?_traceOfRounds c block key hnr] at hrec
  obtain ⟨u, hu, rfl⟩ := Option.map_eq_some_iff.1 hrec
  exact ⟨u, hu, rfl⟩

end Sys2Proof.Machine
end

section
/-! PROOFS. One step of the machine by the agent that moves (R125, R126), the launch (R127), and the sequencer's
step as the case table of R131. -/

namespace Sys2Proof.Machine

variable {s t : State}

/-- Settles O32. -/
theorem stepRunsTheFetchedInstruction : Obligations.StepRunsTheFetchedInstruction :=
  ⟨fun _ _ _ hr hf hd => step_of_fetch_some hr hf hd, fun _ hr hf => step_of_fetch_none hr hf⟩

/-- While BUSY a step is the control store's micro-operation (R131). -/
theorem step_eq_exec_uopInstr {u : Uop} (hb : s.ph = .busy) (hr : s.host.head? ≠ some .reset)
    (hu : controlStore s.nr.toNat s.seq.toNat = some u) : step s = exec (uopInstr u) s.takeMove :=
  step_of_fetch_some hr (fetch_busy hb hu).1 (fetch_busy hb hu).2

/-- While BUSY off the control store's domain a step stops (U11). -/
theorem step_of_controlStore_none (hb : s.ph = .busy) (hr : s.host.head? ≠ some .reset)
    (hu : controlStore s.nr.toNat s.seq.toNat = none) : step s = .fault .controlStoreUndefined := by
  simp [step, State.fetch, hb, hu]

/-- At rest a command is executed as its `START` (R126). -/
theorem step_of_command {w : BitVec 272} (hb : s.ph ≠ .busy) (hc : s.host.head? = some (.command w)) :
    step s = exec (decodeCmd w) s.takeMove :=
  step_of_fetch_some (c := .cmd w) (by simp [hc]) (by simp [State.fetch, hb, hc]) rfl

/-- At rest a request is executed as its `READ` (R157). -/
theorem step_of_request {w : BitVec 6} (hb : s.ph ≠ .busy) (hq : s.host.head? = some (.request w)) :
    step s = exec (.read w) s.takeMove :=
  step_of_fetch_some (c := .rd w) (by simp [hq]) (by simp [State.fetch, hb, hq]) rfl

/-- At rest without a move of the host nothing happens (R133). -/
theorem step_of_quiet (hb : s.ph ≠ .busy) (hq : s.host = [] ∨ s.host.head? = some .quiet) :
    step s = .next s.takeMove := by
  obtain hq | hq := hq <;>
    exact step_of_fetch_none (by simp [hq]) (by simp [State.fetch, hb, hq])

/-- Settles O33, by the agent that moves. -/
theorem fetchFollowsTheControlStore : Obligations.FetchFollowsTheControlStore :=
  ⟨fun _ _ hb hr hu => step_eq_exec_uopInstr hb hr hu, fun _ _ _ hb hh => step_of_command hb (by simp [hh]),
    fun _ _ _ hb hh => step_of_request hb (by simp [hh]), fun _ hb hq => step_of_quiet hb hq⟩

/-- Settles O34: on and off the control store's domain the step reads no port, and takes the move off. -/
theorem runningSequencerIgnoresThePorts : Obligations.RunningSequencerIgnoresThePorts := by
  intro s m m' rest hb hm hm'
  cases hu : controlStore s.nr.toNat s.seq.toNat with
  | none =>
    have stops : ∀ m ≠ HostMove.reset, step { s with host := m :: rest } = .fault .controlStoreUndefined :=
      fun m hm => step_of_controlStore_none (s := { s with host := m :: rest }) hb (by simpa using hm) hu
    rw [stops m hm, stops m' hm']
  | some u =>
    have runs : ∀ m ≠ HostMove.reset,
        step { s with host := m :: rest } = exec (uopInstr u) { s with host := rest, reply := none } :=
      fun m hm => step_eq_exec_uopInstr (s := { s with host := m :: rest }) hb (by simpa using hm) hu
    rw [runs m hm, runs m' hm']

/-- Settles O29. -/
theorem startWhileBusyHasNoEffect : Obligations.StartWhileBusyHasNoEffect :=
  fun _ _ _ _ hb => if_pos hb

/-- At rest a legal `START` launches (R127). -/
theorem execStart_of_legal {ks : BitVec 16} {nr : BitVec 4} (hb : s.ph ≠ .busy) (hk : roundsFor ks = some nr)
    (key block : Block) : execStart ks key block s = .next (launch nr key block s) := by
  simp [execStart, hb, hk]

/-- At rest an illegal `START` enters the error state (R172). -/
theorem execStart_of_illegal {ks : BitVec 16} (hb : s.ph ≠ .busy) (hk : roundsFor ks = none)
    (key block : Block) : execStart ks key block s = .next (raiseInvalidKeySize ks s) := by
  simp [execStart, hb, hk]

/-- Settles O27: the launch writes its fields, and KGEN the round keys up to `NR` and no other. -/
theorem startLaunchesAnInvocation : Obligations.StartLaunchesAnInvocation := by
  intro ks nr key block s hb hsel
  have legal : ∀ rounds : BitVec 4, nr.toNat = rounds.toNat → nr = rounds := fun _ => BitVec.eq_of_toNat_eq
  have hk : roundsFor ks = some nr := roundsFor_eq_some.2 <|
    hsel.imp (.imp_right (legal 10)) (.imp (.imp_right (legal 12)) (.imp_right (legal 14)))
  exact ⟨_, execStart_of_legal hb hk key block, rfl, rfl, rfl,
    fun r hr => (read_kgen _ _ _ r).trans (if_pos hr),
    fun r hr => (read_kgen _ _ _ r).trans (if_neg (Nat.not_le.2 hr)),
    rfl, rfl, rfl, rfl, rfl, fun _ => rfl, rfl, rfl⟩

/-- `newMatrix` is the case table of R131, for every round key index in use. -/
theorem newMatrix_eq_ok {u : Uop} {m : ByteMatrix} (hr : u.rnd.toNat ≤ s.nr.toNat) :
    newMatrix u s = .ok m ↔ NewMatrix u s m := by
  obtain ⟨op, rnd⟩ := u
  cases op with
  | enc => exact encodedBlk_eq_ok
  | arki => exact xorRoundKey_eq_ok.trans (by simp [NewMatrix])
  | sub => exact transformSt_eq_ok
  | rot => exact transformSt_eq_ok
  | mix => exact transformSt_eq_ok
  | ark => exact xorRoundKey_eq_ok.trans (by simp [NewMatrix, hr])
  | fin => exact readSt_eq_ok

/-- A step of a running machine that answers commits the control store's micro-operation (R131). -/
theorem step_busy_next (hb : s.ph = .busy) (hr : s.host.head? ≠ some .reset) (h : step s = .next t) :
    ∃ u m, controlStore s.nr.toNat s.seq.toNat = some u ∧ s.seq.toNat < Config.trDepth ∧ NewMatrix u s m ∧
      t = afterMicroOp u.op u.rnd m s.takeMove := by
  cases step_next h with
  | reset hr' => exact absurd hr' hr
  | rest _ hb' _ _ => exact absurd hb hb'
  | launch _ _ hb' _ _ _ _ _ _ => exact absurd hb hb'
  | error _ _ hb' _ _ _ _ _ => exact absurd hb hb'
  | microOp _ _ u hu hs m hm => exact ⟨u, m, hu, hs, (newMatrix_eq_ok (controlStore_legal hu).2).1 hm, rfl⟩

/-- At rest no step but reset writes `ST` or `TR` or lets `SEQ` grow (R29, R133). -/
theorem step_at_rest_keeps (hb : s.ph ≠ .busy) (hr : s.host.head? ≠ some .reset) (h : step s = .next t) :
    t.st = s.st ∧ t.tr = s.tr ∧ t.seq.toNat ≤ s.seq.toNat := by
  cases step_next h with
  | reset hr' => exact absurd hr' hr
  | rest _ _ _ _ => exact ⟨rfl, rfl, le_rfl⟩
  | launch _ _ _ _ _ _ _ _ _ => exact ⟨rfl, rfl, Nat.zero_le _⟩
  | error _ _ _ _ _ _ _ _ => exact ⟨rfl, rfl, Nat.zero_le _⟩
  | microOp _ hb' _ _ _ _ _ => exact absurd hb' hb

/-- Settles O59: the step answers, and so it commits a micro-operation, whose phase depends on `FIN` alone. -/
theorem sequencerStepIsTheTableOfR131 : Obligations.SequencerStepIsTheTableOfR131 := by
  refine ⟨fun s hs hb hr => ?_, fun s t hb hr h => ?_⟩
  · obtain ⟨t, ht⟩ := hs.step_busy_answers hb hr
    obtain ⟨u, m, hu, hdepth, hm, rfl⟩ := step_busy_next hb hr ht
    refine ⟨u, m, _, hu, hm, ht, rfl, afterMicroOp_read_seq u.op u.rnd m s.takeMove, toNat_seq_succ hdepth, rfl,
      fun hfin => ?_, fun hfin => ?_, microOpKeeps_afterMicroOp u.op u.rnd m s.takeMove⟩
    · simp [hfin, State.done, State.ready, State.busy]
    · simp [hfin, hb, State.done, State.ready, State.busy]
  · obtain ⟨hst, htr, hseq⟩ := step_at_rest_keeps hb hr h
    exact ⟨hst, fun n => by rw [htr], hseq⟩

end Sys2Proof.Machine
end

section
/-! PROOFS. An invocation step by step: after `k` steps the machine holds the first `k` records of `BuildTrace` and
the last one's matrix in `ST` (R131, R134, R135), and its steps lead to the end in DONE (R132). -/

namespace Sys2Proof.Machine

/-- The machine `k` steps into the invocation of `block` and `key` with `nr` rounds, whatever else it holds: BUSY
until the last of the `4*nr + 2` steps is done, then DONE. -/
structure InvocationAt (block key : Block) (nr : BitVec 4) (k : Nat) (s : State) : Prop where
  rounds  : s.nr = nr
  seq     : s.seq.toNat = k
  ph      : s.ph = if k = 4 * nr.toNat + 2 then .done else .busy
  blk     : s.blk = some block
  km      : s.km = some (encodeBlock key)
  keys    : ∀ r ≤ nr.toNat, s.rk.read r = some (roundKey (encodeBlock key) r)
  records : ∀ n < k, s.tr.read n = (traceOfRounds Config.standard block key nr.toNat)[n]?
  st      : 1 ≤ k → s.st = some (snapshot Config.standard block key nr.toNat k)

variable {block key : Block} {nr : BitVec 4} {k : Nat} {s t : State} {u : Uop}

/-- The invocation's state names no port. -/
theorem InvocationAt.withPorts (h : InvocationAt block key nr k s) (host : List HostMove)
    (reply : Option StepRecord) : InvocationAt block key nr k { s with host := host, reply := reply } where
  rounds := h.rounds
  seq := h.seq
  ph := h.ph
  blk := h.blk
  km := h.km
  keys := h.keys
  records := h.records
  st := h.st

/-- A launch is the start of an invocation (R127). -/
theorem invocationAt_launch (nr : BitVec 4) (key block : Block) (s : State) :
    InvocationAt block key nr 0 (launch nr key block s) where
  rounds := rfl
  seq := rfl
  ph := (if_neg (Nat.succ_ne_zero _).symm).symm
  blk := rfl
  km := rfl
  keys := fun r hr => (read_kgen _ _ _ r).trans (if_pos hr)
  records := nofun
  st := nofun

/-- The matrix that the case table of R131 gives at step `k` is `BuildTrace`'s. -/
theorem InvocationAt.newMatrix_snapshot (h : InvocationAt block key nr k s)
    (hu : controlStore nr.toNat k = some u) :
    NewMatrix u s (snapshot Config.standard block key nr.toNat (k + 1)) := by
  obtain ⟨hnr, -⟩ := controlStore_domain hu
  have hst : u.op ≠ .enc → s.st = some (snapshot Config.standard block key nr.toNat k) := fun hne =>
    h.st (Nat.one_le_iff_ne_zero.2 ((controlStore_ends hu).2.not.1 hne))
  have hrnd := (controlStore_legal hu).2
  rw [snapshot_succ Config.standard block key hnr hu]
  obtain ⟨op, rnd⟩ := u
  cases op with
  | enc => exact ⟨block, h.blk, rfl⟩
  | arki => exact ⟨_, _, hst nofun, h.keys 0 (Nat.zero_le _), rfl⟩
  | sub => exact ⟨_, hst nofun, rfl⟩
  | rot => exact ⟨_, hst nofun, rfl⟩
  | mix => exact ⟨_, hst nofun, rfl⟩
  | ark => exact ⟨_, _, hst nofun, h.keys rnd.toNat hrnd, rfl⟩
  | fin => exact hst nofun

/-- Step `k` of an invocation commits `BuildTrace`'s matrix (R131). -/
theorem InvocationAt.step_eq (h : InvocationAt block key nr k s) (hu : controlStore nr.toNat k = some u)
    (hr : s.host.head? ≠ some .reset) :
    step s = .next
      (afterMicroOp u.op u.rnd (snapshot Config.standard block key nr.toNat (k + 1)) s.takeMove) := by
  obtain ⟨hnr, hk⟩ := controlStore_domain hu
  obtain ⟨hl, hrnd⟩ := controlStore_legal hu
  have hb : s.ph = .busy := h.ph.trans (if_neg (by omega))
  have hm := (newMatrix_eq_ok (by rw [h.rounds]; exact hrnd)).2 (h.newMatrix_snapshot hu)
  rw [step_eq_exec_uopInstr hb hr (by rw [h.rounds, h.seq, hu])]
  exact exec_uopInstr_of_ok hl hb (by simp only [takeMove_seq, h.seq, Config.trDepth]; omega) hm

/-- Step `k`'s commit leaves the machine `k + 1` steps into the invocation: the new record is `BuildTrace`'s record
`k`, and `FIN` comes at the last step alone. -/
theorem InvocationAt.commit (h : InvocationAt block key nr k s) (hu : controlStore nr.toNat k = some u) :
    InvocationAt block key nr (k + 1)
      (afterMicroOp u.op u.rnd (snapshot Config.standard block key nr.toNat (k + 1)) s) := by
  obtain ⟨hnr, hk⟩ := controlStore_domain hu
  have hb : s.ph = .busy := h.ph.trans (if_neg (by omega))
  have hfin : u.op = .fin ↔ k + 1 = 4 * nr.toNat + 2 := by rw [(controlStore_ends hu).1]; omega
  exact
  { rounds := h.rounds
    seq := by rw [afterMicroOp_seq, toNat_seq_succ (by simp only [h.seq, Config.trDepth]; omega), h.seq]
    ph := by simp only [afterMicroOp_ph, hb, hfin]
    blk := h.blk
    km := h.km
    keys := h.keys
    records := by
      intro n hn
      rw [afterMicroOp_tr, h.seq]
      obtain rfl | hlt := Nat.eq_or_lt_of_le (Nat.lt_succ_iff.1 hn)
      · have hseq : s.seq = BitVec.ofNat 6 n := BitVec.eq_of_toNat_eq (by
          rw [h.seq, BitVec.toNat_ofNat, Nat.mod_eq_of_lt (by omega)])
        rw [Memory.read_write_same, getElem?_traceOfRounds Config.standard block key hnr, hu, hseq, Option.map_some]
      · rw [Memory.read_write_ne _ _ hlt.ne', h.records n hlt]
    st := fun _ => rfl }

/-- An invocation goes on: without reset its next step answers, and it writes neither of the error's registers. -/
theorem InvocationAt.step_next (h : InvocationAt block key nr k s) (hnr : LegalRounds nr.toNat)
    (hk : k < 4 * nr.toNat + 2) (hr : s.host.head? ≠ some .reset) :
    ∃ t, step s = .next t ∧ InvocationAt block key nr (k + 1) t ∧ t.host = s.host.tail ∧
      t.ecause = s.ecause ∧ t.eval = s.eval := by
  obtain ⟨u, hu⟩ := exists_controlStore hnr hk
  exact ⟨_, h.step_eq hu hr, (h.withPorts s.host.tail none).commit hu, rfl, rfl, rfl⟩

/-- In an invocation the built trace is there as far as it goes (R135). -/
theorem InvocationAt.builtInv (h : InvocationAt block key nr k s) (hnr : LegalRounds nr.toNat)
    (hk : k ≤ 4 * nr.toNat + 2) : BuiltInv s := by
  intro _
  refine ⟨block, encodeBlock key, h.blk, h.km, fun n hn => ?_⟩
  rw [h.seq] at hn ⊢
  obtain ⟨u, hu⟩ := exists_controlStore hnr (show n < 4 * nr.toNat + 2 by omega)
  have hrec := getElem?_traceOfRounds Config.standard block key hnr n
  rw [hu, Option.map_some] at hrec
  refine ⟨_, (h.records n hn).trans hrec, by rw [decodeMatrix_encodeBlock, h.rounds, hrec], ?_⟩
  rintro rfl
  exact h.st (Nat.succ_pos n)

/-- A well-formed running machine that holds the built trace is `SEQ` steps into the invocation of the latched block
and key. -/
theorem Inv.invocationAt (h : Inv s) (hb : s.ph = .busy) (hbuilt : BuiltInv s) :
    ∃ block key, InvocationAt block key s.nr s.seq.toNat s := by
  obtain ⟨block, km, hblk, hkm, hrec⟩ := hbuilt (.inl hb)
  obtain ⟨km', hkm', hkeys⟩ := h.roundKeys (.inl hb)
  obtain rfl : km = km' := Option.some.inj (hkm.symm.trans hkm')
  obtain ⟨hnr, hseq, -⟩ := h.busy hb
  refine ⟨block, decodeMatrix km, ?_⟩
  exact
  { rounds := rfl
    seq := rfl
    ph := by rw [if_neg (by omega), hb]
    blk := hblk
    km := by rw [encodeBlock_decodeMatrix, hkm]
    keys := by rw [encodeBlock_decodeMatrix]; exact hkeys
    records := by
      intro n hn
      obtain ⟨rec, hread, htrace, -⟩ := hrec n hn
      rw [hread, htrace]
    st := by
      intro hpos
      obtain ⟨rec, -, htrace, hst⟩ := hrec (s.seq.toNat - 1) (by omega)
      rw [getElem?_traceOfRounds Config.standard block _ hnr] at htrace
      obtain ⟨u, -, rfl⟩ := Option.map_eq_some_iff.1 htrace
      have hst := hst (Nat.sub_add_cancel hpos)
      rw [Nat.sub_add_cancel hpos] at hst
      exact hst }

/-- Settles O60: while BUSY the step is the invocation's next one; a launch and reset begin with no record, and at
rest no step writes the trace. -/
theorem stepKeepsTheBuiltTrace : Obligations.StepKeepsTheBuiltTrace := by
  intro s t h hbuilt hst
  cases step_next hst with
  | reset _ => nofun
  | rest _ _ _ _ => exact hbuilt
  | launch _ _ _ ks key block _ nr _ =>
    exact fun _ => ⟨block, encodeBlock key, rfl, rfl, fun _ hn => absurd hn (Nat.not_lt_zero _)⟩
  | error _ _ _ _ _ _ _ _ => nofun
  | microOp hr hb _ _ _ _ _ =>
    obtain ⟨hnr, hseq, -⟩ := h.busy hb
    obtain ⟨block, key, hat⟩ := h.invocationAt hb hbuilt
    obtain ⟨t, ht, hat', -⟩ := hat.step_next hnr (by omega) hr
    cases ht.symm.trans hst
    exact hat'.builtInv hnr (by omega)

/-- One step, then the rest of a run. -/
theorem runSteps_succ (h : step s = .next t) (k : Nat) : runSteps (k + 1) s = runSteps k t := by
  simp [runSteps, h]

/-- No reset in `j + 1` moves: none in the first, and none in the `j` that follow. -/
theorem noReset_succ {j : Nat} {moves : List HostMove} (h : NoReset (j + 1) moves) :
    moves.head? ≠ some .reset ∧ NoReset j moves.tail := by
  cases moves with
  | nil => exact ⟨nofun, by simp [NoReset]⟩
  | cons m rest =>
    rw [NoReset, List.take_succ_cons, List.forall_mem_cons] at h
    exact ⟨fun he => h.1 (Option.some.inj he), h.2⟩

/-- A run of an invocation: without reset, `j` steps lead `j` steps on, up to the end (R132). -/
theorem InvocationAt.runSteps_next {j : Nat} (hnr : LegalRounds nr.toNat) (h : InvocationAt block key nr k s)
    (hk : k + j ≤ 4 * nr.toNat + 2) (hr : NoReset j s.host) :
    ∃ t, runSteps j s = .next t ∧ InvocationAt block key nr (k + j) t ∧
      t.ecause = s.ecause ∧ t.eval = s.eval := by
  induction j generalizing s k with
  | zero => exact ⟨s, rfl, h, rfl, rfl⟩
  | succ j ih =>
    obtain ⟨hhead, htail⟩ := noReset_succ hr
    obtain ⟨s', hs', hat, hhost, hcause, heval⟩ := h.step_next hnr (by omega) hhead
    obtain ⟨t, ht, hat', hcause', heval'⟩ := ih hat (by omega) (hhost ▸ htail)
    exact ⟨t, by rw [runSteps_succ hs', ht], by rwa [Nat.add_right_comm, Nat.add_assoc] at hat',
      hcause'.trans hcause, heval'.trans heval⟩

section Start

variable {w : BitVec 272} {rest : List HostMove} {ks : BitVec 16}

/-- The step that takes a legal `START` at rest (R127). -/
theorem step_of_legal_start (hb : s.ph ≠ .busy) (hh : s.host = .command w :: rest)
    (hd : decode (.cmd w) = .ok (.start ks key block)) (hk : roundsFor ks = some nr) :
    step s = .next (launch nr key block s.takeMove) := by
  rw [step_of_command (w := w) hb (by simp [hh]), Except.ok.inj hd]
  exact execStart_of_legal (s := s.takeMove) hb hk key block

/-- The step that takes an illegal `START` at rest (R172). -/
theorem step_of_illegal_start (hb : s.ph ≠ .busy) (hh : s.host = .command w :: rest)
    (hd : decode (.cmd w) = .ok (.start ks key block)) (hk : roundsFor ks = none) :
    step s = .next (raiseInvalidKeySize ks s.takeMove) := by
  rw [step_of_command (w := w) hb (by simp [hh]), Except.ok.inj hd]
  exact execStart_of_illegal (s := s.takeMove) hb hk key block

/-- A legal `START` at rest and `j` steps without reset lead `j` steps into its invocation, with no error. -/
theorem runSteps_of_legal_start (hb : s.ph ≠ .busy) (hh : s.host = .command w :: rest)
    (hd : decode (.cmd w) = .ok (.start ks key block)) (hk : roundsFor ks = some nr)
    (hr : NoReset (4 * nr.toNat + 2) rest) {j : Nat} (hj : j ≤ 4 * nr.toNat + 2) :
    ∃ t, runSteps (j + 1) s = .next t ∧ InvocationAt block key nr j t ∧ t.ecause = 0 ∧ t.eval = 0 := by
  have hrest : NoReset j (launch nr key block s.takeMove).host := by
    rw [launch_host, takeMove_host, hh, List.tail_cons]
    exact fun m hm => hr m (List.take_subset_take_left _ hj hm)
  obtain ⟨t, ht, hat, hcause, heval⟩ := (invocationAt_launch nr key block s.takeMove).runSteps_next
    (legalRounds_of_roundsFor hk) (by omega) hrest
  rw [Nat.zero_add] at hat
  exact ⟨t, (runSteps_succ (step_of_legal_start hb hh hd hk) j).trans ht, hat, hcause, heval⟩

end Start

/-- Settles O46: `k` steps into the invocation `SEQ` is `k`, and its phase is DONE at the end alone. -/
theorem invocationTakesExactlyItsSteps : Obligations.InvocationTakesExactlyItsSteps := by
  intro s w rest ks key block nr hb hh hd hk hr
  constructor
  · intro k hle
    obtain ⟨t, ht, hat, -⟩ := runSteps_of_legal_start hb hh hd hk hr (j := k) (by omega)
    exact ⟨t, ht, hat.ph.trans (if_neg (by omega)), hat.seq, hat.rounds⟩
  · obtain ⟨t, ht, hat, -⟩ := runSteps_of_legal_start hb hh hd hk hr le_rfl
    exact ⟨t, ht, hat.ph.trans (if_pos rfl)⟩

/-- Settles O45: a legal selector by the end of its invocation, an illegal one by the error entry. -/
theorem runBuildsTheTrace : Obligations.RunBuildsTheTrace := by
  intro s w rest ks key block hb hh hd
  cases hk : roundsFor ks with
  | none =>
    simp only [buildTrace, hk]
    exact ⟨trivial, trivial, _, step_of_illegal_start hb hh hd hk, rfl, rfl⟩
  | some nr =>
    simp only [buildTrace, hk, Option.some.injEq]
    rintro _ rfl hr
    obtain ⟨t, ht, hat, -⟩ := runSteps_of_legal_start hb hh hd hk hr le_rfl
    exact ⟨length_traceOfRounds _ _ _ (legalRounds_of_roundsFor hk), t, ht, hat.ph.trans (if_pos rfl), hat.seq,
      hat.records⟩

/-- Two states at one point of one invocation, with no error, look the same to the host (R136). -/
theorem InvocationAt.sameToHost (h : InvocationAt block key nr k s) (h' : InvocationAt block key nr k t)
    (hcause : s.ecause = t.ecause) (heval : s.eval = t.eval) : SameToHost s t := by
  have hph : s.ph = t.ph := h.ph.trans h'.ph.symm
  have hseq : s.seq = t.seq := BitVec.eq_of_toNat_eq (h.seq.trans h'.seq.symm)
  have hnr : s.nr = t.nr := h.rounds.trans h'.rounds.symm
  constructor
  · simp only [State.status, State.ready, State.busy, State.done, State.errFlag, State.tlen, hph, hseq, hnr,
      hcause, heval]
  · intro _ n hn
    rw [h.seq] at hn
    rw [h.records n hn, h'.records n hn]

/-- Settles O47: both runs end at the same point of the same invocation, or in the same error. -/
theorem resultDependsOnTheInputsOnly : Obligations.ResultDependsOnTheInputsOnly := by
  intro s s' w rest rest' ks key block hb hb' hh hh' hd
  constructor
  · intro nr hk hr hr'
    obtain ⟨t, ht, hat, hcause, heval⟩ := runSteps_of_legal_start hb hh hd hk hr le_rfl
    obtain ⟨t', ht', hat', hcause', heval'⟩ := runSteps_of_legal_start hb' hh' hd hk hr' le_rfl
    exact ⟨t, t', ht, ht', hat.sameToHost hat' (hcause.trans hcause'.symm) (heval.trans heval'.symm)⟩
  · intro hk
    exact ⟨_, _, step_of_illegal_start hb hh hd hk, step_of_illegal_start hb' hh' hd hk, rfl, rfl, rfl, rfl⟩

end Sys2Proof.Machine
end

section
/-! PROOFS. The trace recorder: what a micro-operation's commit adds to the records (R153, R154), `READ` (R157), and
the last two records of `BuildTrace` (R155). -/

namespace Sys2Proof.Machine

variable {s : State}

/-- The control store's micro-operation adds its own record, a snapshot of the new `ST`, and rewrites none
(R152 to R154, R156). -/
theorem traceInv_afterMicroOp (h : TraceInv s) (hb : s.ph = .busy) {u : Uop}
    (hu : controlStore s.nr.toNat s.seq.toNat = some u) (hs : s.seq.toNat < Config.trDepth) (m : ByteMatrix) :
    TraceInv (afterMicroOp u.op u.rnd m s) := by
  intro _ n hn
  simp only [afterMicroOp_seq, afterMicroOp_tr, afterMicroOp_nr, afterMicroOp_st, toNat_seq_succ hs] at hn ⊢
  obtain rfl | hlt := Nat.eq_or_lt_of_le (Nat.lt_succ_iff.1 hn)
  · refine ⟨_, Memory.read_write_same _ _ _, ⟨u, hu, ?_⟩, fun _ => rfl⟩
    rw [BitVec.ofNat_toNat, BitVec.setWidth_eq]
    rfl
  · obtain ⟨rec, hread, hstep, -⟩ := h (.inl hb) n hlt
    exact ⟨rec, (Memory.read_write_ne _ _ hlt.ne').trans hread, hstep, fun hlast => by omega⟩

/-- Settles O44: only the commit adds a record; reset and the error entry leave the phases of the claim, and a launch
begins with no record. -/
theorem stepKeepsTheTraceInvariant : Obligations.StepKeepsTheTraceInvariant := by
  intro s t h hst
  cases step_next hst with
  | reset _ => nofun
  | rest _ _ _ _ => exact h
  | launch _ _ _ _ _ _ _ _ _ => exact fun _ _ hn => absurd hn (Nat.not_lt_zero _)
  | error _ _ _ _ _ _ _ _ => nofun
  | microOp _ hb _ hu hs m _ => exact traceInv_afterMicroOp (s := s.takeMove) h hb hu hs m

/-- An enabled `READ` of an entry that is there returns it (R157). -/
theorem execRead_of_enabled {n : BitVec 6} {rec : StepRecord} (hd : s.ph = .done) (hn : n.toNat < s.seq.toNat)
    (hrec : s.tr.read n.toNat = some rec) : execRead n s = .next { s with reply := some rec } := by
  simp [execRead, hd, hn, hrec]

/-- A `READ` outside DONE, or at or above `SEQ`, is refused without effect (R50, R157). -/
theorem execRead_of_not_enabled {n : BitVec 6} (h : s.ph ≠ .done ∨ s.seq.toNat ≤ n.toNat) :
    execRead n s = .next { s with reply := none } :=
  if_neg fun ⟨hd, hn⟩ => h.elim (absurd hd) (Nat.not_le.2 hn)

/-- Settles O30, one lemma per clause. -/
theorem readReturnsTheRecordOrNothing : Obligations.ReadReturnsTheRecordOrNothing :=
  ⟨fun _ _ _ => execRead_of_enabled, fun _ _ => execRead_of_not_enabled⟩

/-- The last word of the control store is `FIN` (R129). -/
theorem controlStore_last {nr : Nat} (h : LegalRounds nr) :
    controlStore nr (4 * nr + 1) = some { op := .fin, rnd := 0 } := by
  obtain rfl | rfl | rfl := h <;> rfl

/-- In the `REC` word of a record that carries its matrix decoded, the `ct` field equals the `mat` field (R66, R155). -/
theorem recordWord_ct_eq_mat {r : StepRecord} (h : r.ct = some (decodeMatrix r.mat)) :
    (recordWord r).extractLsb' 128 128 = (recordWord r).extractLsb' 0 128 := by
  rw [recordWord_ct, recordWord_mat, h, ciphertextBits, packMatrix]

/-- Settles O52: `FIN`, the last step, leaves the snapshot as it is. -/
theorem lastRecordCarriesTheCiphertext : Obligations.LastRecordCarriesTheCiphertext := by
  intro c block key nr hnr
  obtain ⟨u, hu⟩ := exists_controlStore hnr (show 4 * nr < 4 * nr + 2 by omega)
  have hfin := controlStore_last hnr
  exact ⟨_, _, by rw [getElem?_traceOfRounds c block key hnr, hu, Option.map_some],
    by rw [getElem?_traceOfRounds c block key hnr, hfin, Option.map_some], rfl, rfl,
    snapshot_succ c block key hnr hfin, recordWord_ct_eq_mat rfl⟩

end Sys2Proof.Machine
end

section
/-! PROOFS. The text of a record: the characters of bytes, matrices and ciphertexts (R160, R161), and why no two
consistent records have one text (R151). -/

namespace Sys2Proof.Machine

/-- The digit of a value below 16 stands at its place in R160's list. -/
theorem getElem?_hexDigits : ∀ d < 16, "0123456789abcdef".toList[d]? = some (hexDigit d) := by decide

theorem hexDigit_inj : ∀ d < 16, ∀ d' < 16, hexDigit d = hexDigit d' → d = d' := by decide

@[simp] theorem length_hexPair (v : Byte) : (hexPair v).length = 2 := rfl

/-- Two digits for one byte lose nothing (R160). -/
theorem hexPair_injective : Function.Injective hexPair := by
  intro v v' h
  obtain ⟨hhi, hlo⟩ : hexDigit (v.toNat / 16) = hexDigit (v'.toNat / 16) ∧
      hexDigit (v.toNat % 16) = hexDigit (v'.toNat % 16) := by simpa [hexPair] using h
  have hdiv := hexDigit_inj _ (by omega) _ (by omega) hhi
  have hmod := hexDigit_inj _ (by omega) _ (by omega) hlo
  exact BitVec.eq_of_toNat_eq (by omega)

/-- The characters of `HexByte(v)` (R160). -/
theorem toList_hexByte (v : Byte) :
    (hexByte v).toList = ['0', 'x', hexDigit (v.toNat / 16), hexDigit (v.toNat % 16)] :=
  String.toList_ofList

theorem hexByte_injective : Function.Injective hexByte := by
  intro v v' h
  simpa [hexPair_injective.eq_iff] using String.ofList_injective h

/-- Row `i` of the grid is `HexByte` of row `i` of the matrix (R160). -/
theorem getElem?_renderMatrix (m : ByteMatrix) (i : Fin 4) :
    (renderMatrix m)[i.val]? = some (m[i].toList.map hexByte) := by
  simp [renderMatrix]

theorem renderMatrix_injective : Function.Injective renderMatrix := by
  intro m m' h
  have hrow : Function.Injective fun row : Vector Byte 4 => row.toList.map hexByte :=
    hexByte_injective.list_map.comp fun _ _ => Vector.toList_inj.1
  exact Vector.toList_inj.1 (hrow.list_map h)

/-- The digits of byte `n` of a list are its characters `2n` and `2n + 1` (R161). -/
theorem getElem?_flatMap_hexPair (bs : List Byte) (n : Nat) :
    (bs.flatMap hexPair)[2 * n]? = bs[n]?.map (fun v => hexDigit (v.toNat / 16)) ∧
      (bs.flatMap hexPair)[2 * n + 1]? = bs[n]?.map (fun v => hexDigit (v.toNat % 16)) := by
  induction bs generalizing n with
  | nil => simp
  | cons v bs ih =>
    cases n with
    | zero => simp [hexPair]
    | succ n => simpa [hexPair, Nat.mul_succ] using ih n

/-- The digits of byte `n` of a block stand at places `2n` and `2n + 1` of its ciphertext string (R161). -/
theorem getElem?_renderCiphertext (b : Block) (n : Fin 16) :
    (renderCiphertext b).toList[2 * n.val]? = some (hexDigit (b[n].toNat / 16)) ∧
      (renderCiphertext b).toList[2 * n.val + 1]? = some (hexDigit (b[n].toNat % 16)) := by
  simpa [renderCiphertext] using getElem?_flatMap_hexPair b.toList n.val

/-- The ciphertext string shows every byte's two digits, and so loses nothing (R151). -/
theorem renderCiphertext_injective : Function.Injective renderCiphertext := by
  intro b b' h
  refine block_ext fun n hn => hexPair_injective ?_
  obtain ⟨hhi, hlo⟩ := getElem?_renderCiphertext b ⟨n, hn⟩
  obtain ⟨hhi', hlo'⟩ := getElem?_renderCiphertext b' ⟨n, hn⟩
  rw [← h] at hhi' hlo'
  exact congrArg₂ (fun hi lo => [hi, lo]) (Option.some.inj (hhi.symm.trans hhi'))
    (Option.some.inj (hlo.symm.trans hlo'))

theorem renderColour_injective : Function.Injective renderColour := by
  intro c c'
  cases c <;> cases c' <;> decide

/-- The colour of an operation and the presence of a round tell the operation (R67, R68). -/
theorem op_eq_of_colour_of_hasRound {op op' : Op} :
    colour op = colour op' → hasRound op = hasRound op' → op = op' := by
  cases op <;> cases op' <;> decide

/-- The rendered text fixes every field but the operation (R151, R158). -/
theorem fields_eq_of_renderRecord_eq {p : Config.DisplayParams} {r r' : StepRecord}
    (h : renderRecord p r = renderRecord p r') :
    r.seq = r'.seq ∧ r.round = r'.round ∧ r.col = r'.col ∧ r.mat = r'.mat ∧ r.ct = r'.ct := by
  obtain ⟨hseq, -, -, hmat, hround, hct, hcol⟩ := RenderedRecord.mk.inj h
  exact ⟨BitVec.toNat_injective hseq, Option.map_injective BitVec.toNat_injective hround,
    renderColour_injective hcol, renderMatrix_injective hmat, Option.map_injective renderCiphertext_injective hct⟩

/-- Settles O55: of consistent records the equal fields fix the operation as well. -/
theorem renderingLosesNothing : Obligations.RenderingLosesNothing := by
  refine ⟨fun p r r' hr hr' h => ?_, fun _ _ _ => fields_eq_of_renderRecord_eq⟩
  obtain ⟨hseq, hround, hcol, hmat, hct⟩ := fields_eq_of_renderRecord_eq h
  obtain ⟨-, hrd, -, hc, -⟩ := recordConsistent_iff.1 hr
  obtain ⟨-, hrd', -, hc', -⟩ := recordConsistent_iff.1 hr'
  have hop : r.op = r'.op :=
    op_eq_of_colour_of_hasRound (by rw [← hc, ← hc', hcol]) (by rw [← hrd, ← hrd', hround])
  cases r
  cases r'
  rw [StepRecord.mk.injEq]
  exact ⟨hseq, hop, hround, hcol, hmat, hct⟩

/-- Settles O56: bytes by their two digits, the grid row by row, the ciphertext by the places of its digits. -/
theorem hexTextForms : Obligations.HexTextForms := by
  refine ⟨fun v => ?_, rfl, rfl, rfl, rfl, fun m => ⟨by simp [renderMatrix], fun i j => ?_⟩,
    fun b => ⟨by simp [renderCiphertext], fun n => ?_⟩⟩
  · exact ⟨_, _, toList_hexByte v, getElem?_hexDigits _ (by omega), getElem?_hexDigits _ (by omega)⟩
  · exact ⟨_, getElem?_renderMatrix m i, by simp, by simp⟩
  · obtain ⟨hhi, hlo⟩ := getElem?_renderCiphertext b n
    exact ⟨_, _, hhi, hlo, getElem?_hexDigits _ (by omega), getElem?_hexDigits _ (by omega)⟩

end Sys2Proof.Machine
end

section
/-! PROOFS. The one exception, InvalidKeySize: what its entry writes and what it leaves (R172). -/

namespace Sys2Proof.Machine

/-- Settles O28: a selector without a round count leads to the error entry, which writes its four fields only. -/
theorem illegalSelectorEntersTheErrorState : Obligations.IllegalSelectorEntersTheErrorState := by
  intro ks key block s hb h128 h192 h256
  have hk : roundsFor ks = none := roundsFor_eq_none.2 ⟨h128, h192, h256⟩
  refine ⟨raiseInvalidKeySize ks s, execStart_of_illegal hb hk key block, ?_⟩
  simp

end Sys2Proof.Machine
end

section
/-! PROOFS. Reset and the ends of an invocation (R190): what a reset step answers, and which
steps leave BUSY. -/

namespace Sys2Proof.Machine

/-- A reset step answers the state after reset and no other. -/
theorem eq_afterReset_of_step {s t : State} (hr : s.host.head? = some .reset) (h : step s = .next t) :
    t = s.afterReset :=
  Host.Outcome.next.inj (h.symm.trans (step_of_reset hr))

/-- Settles O35: the reset step answers `afterReset`; without reset, R19 lets only `FIN` leave BUSY. -/
theorem resetAndTheEndsOfAnInvocation : Obligations.ResetAndTheEndsOfAnInvocation := by
  refine ⟨fun s hr => ⟨s.afterReset, step_of_reset hr, rfl, rfl, rfl, rfl, rfl, rfl, rfl, rfl,
    Memory.read_empty, Memory.read_empty, rfl, rfl, rfl, rfl, rfl⟩, fun s t hb h hleft => ?_⟩
  by_cases hr : s.host.head? = some .reset
  · obtain rfl : t = s.afterReset := eq_afterReset_of_step hr h
    exact .inl ⟨hr, afterReset_ph s⟩
  · obtain hstay | hfin := (phaseTransitions.2 s t hr h).1 hb
    · exact absurd hstay hleft
    · exact .inr hfin

end Sys2Proof.Machine
end
